-- ==== Sys2Proof/Word.lean ====
section
/-! DEFINITION. Word types of the bitlab CORE: only what the spec treats as bits. Offsets, lengths and widths are natural
numbers (40_addressor.md R101: exact arithmetic, nothing wraps) and are plain `Nat`. -/

namespace Sys2Proof

/-- A byte of the source memory, 8 bits (00_scope.md R7, 20_memory.md R40). -/
abbrev Byte := BitVec 8

/-- The control word CTL, 16 bits (10_state.md R25). -/
abbrev CtlWord := BitVec 16

/-- A value bus, VALUE_IN or VALUE_OUT, 64 bits (00_scope.md R8). -/
abbrev Bus := BitVec 64

end Sys2Proof
end

