-- ==== Sys2Proof/Config.lean ====
section
/-! DEFINITION. What an instance of the CORE fixes: the two parameters the spec leaves open (00_scope.md R8). They are data,
held in the state's `config` field and changed by no step, so that every statement is about every instance (log 1). The CORE
has no free value: given these two, every command has exactly one outcome (10_state.md R28), so no opaque constant stands here. -/

namespace Sys2Proof

/-- ZERO_WIDTH_POLICY: what a request of width 0 does (40_addressor.md R108, D9). -/
inductive ZeroWidthPolicy where
  /-- A request of width 0 raises ZeroWidth before every other check. -/
  | reject
  /-- The ordinary checks run with width 0; a request they accept reads or writes nothing. -/
  | noOp
deriving DecidableEq, Repr

/-- The parameters of one instance of the CORE (00_scope.md R8): constants of the instance, not registers (10_state.md R23). -/
structure Config where
  /-- AW: the width in bits of START_BYTE, START_BIT and SRC_LEN. -/
  aw : Nat
  /-- ZERO_WIDTH_POLICY. -/
  zeroWidthPolicy : ZeroWidthPolicy
deriving DecidableEq, Repr

/-- The spec's defaults: AW = 32 and ZERO_WIDTH_POLICY = Reject (00_scope.md R8). -/
def Config.default : Config where
  aw := 32
  zeroWidthPolicy := .reject

end Sys2Proof
end

