-- ==== Sys2Proof/Syntax.lean ====
section
/-! DEFINITION. The command record and the fifteen commands (10_state.md R25, 30_encoding.md R76). -/

namespace Sys2Proof

/-- The command record, the whole input of one command (10_state.md R25). START_BYTE, START_BIT and SRC_LEN are AW-bit
unsigned numbers: natural numbers here, whose fit in AW bits `Command.fits` checks (log 17). -/
structure Command where
  ctl       : CtlWord
  startByte : Nat
  startBit  : Nat
  srcLen    : Nat
  valueIn   : Bus
deriving DecidableEq, Repr

/-- The operands every command has: the source length and the position of the field's first bit
(30_encoding.md R75, R81: `n=`, `byte=`, `bit=`). -/
structure Place where
  srcLen    : Nat
  startByte : Nat
  startBit  : Nat
deriving DecidableEq, Repr

/-- The fifteen commands of 30_encoding.md R76, one constructor each, with the operands of the notation of R81: the place,
then the width `w=`, then the value `v=`. The single-bit commands carry no width: it is 1 (R78). -/
inductive Instr where
  | test   (p : Place)
  | setb   (p : Place)
  | clrb   (p : Place)
  | extu8  (p : Place) (width : Nat)
  | extu16 (p : Place) (width : Nat)
  | extu32 (p : Place) (width : Nat)
  | extu64 (p : Place) (width : Nat)
  | exts8  (p : Place) (width : Nat)
  | exts16 (p : Place) (width : Nat)
  | exts32 (p : Place) (width : Nat)
  | exts64 (p : Place) (width : Nat)
  | ins8   (p : Place) (width : Nat) (value : Bus)
  | ins16  (p : Place) (width : Nat) (value : Bus)
  | ins32  (p : Place) (width : Nat) (value : Bus)
  | ins64  (p : Place) (width : Nat) (value : Bus)
deriving DecidableEq, Repr

end Sys2Proof
end

