-- ==== Sys2Proof/WellFormed.lean ====
section
/-! DEFINITION. When a command's operands fit the fields that carry them (10_state.md R25, 30_encoding.md R74, R75). -/

namespace Sys2Proof

/-- START_BYTE, START_BIT and SRC_LEN each fit in AW bits (10_state.md R25). -/
def Place.fits (aw : Nat) (p : Place) : Bool :=
  decide (p.srcLen < 2 ^ aw) && decide (p.startByte < 2 ^ aw) && decide (p.startBit < 2 ^ aw)

/-- WIDTH fits its 7 bits: 0 to 127 (30_encoding.md R74). -/
def widthFits (width : Nat) : Bool := decide (width < 128)

/-- A command whose operands the record can carry, on an instance with `aw`-bit operand fields. -/
def Instr.wf (aw : Nat) : Instr → Bool
  | .test p => p.fits aw
  | .setb p => p.fits aw
  | .clrb p => p.fits aw
  | .extu8 p width => p.fits aw && widthFits width
  | .extu16 p width => p.fits aw && widthFits width
  | .extu32 p width => p.fits aw && widthFits width
  | .extu64 p width => p.fits aw && widthFits width
  | .exts8 p width => p.fits aw && widthFits width
  | .exts16 p width => p.fits aw && widthFits width
  | .exts32 p width => p.fits aw && widthFits width
  | .exts64 p width => p.fits aw && widthFits width
  | .ins8 p width _ => p.fits aw && widthFits width
  | .ins16 p width _ => p.fits aw && widthFits width
  | .ins32 p width _ => p.fits aw && widthFits width
  | .ins64 p width _ => p.fits aw && widthFits width

/-- A record whose operand fields fit in `aw` bits; no other record can be presented (43_host_operations.md R191, U14). -/
def Command.fits (aw : Nat) (c : Command) : Bool :=
  decide (c.startByte < 2 ^ aw) && decide (c.startBit < 2 ^ aw) && decide (c.srcLen < 2 ^ aw)

end Sys2Proof
end

