-- ==== Sys2Proof/Decode.lean ====
section
/-! DEFINITION. The decoder of 30_encoding.md R77, total on every record and rejecting by name, the opcode table of R76 as
data, the record as one number, and the encoder of R81. The encoding is the spec's own decision (D3 to D5; log 20). -/

namespace Sys2Proof

/-! ## The fields of the control word, each read as a number (30_encoding.md R71) -/

/-- `CTL[3:0]`, the operation. -/
def ctlOpc (ctl : CtlWord) : Nat := (ctl.extractLsb' 0 4).toNat

/-- `CTL[5:4]`, the capacity selector. -/
def ctlCap (ctl : CtlWord) : Nat := (ctl.extractLsb' 4 2).toNat

/-- `CTL[12:6]`, the width, read as an unsigned number with no scaling and no bias (30_encoding.md R74). -/
def ctlWidth (ctl : CtlWord) : Nat := (ctl.extractLsb' 6 7).toNat

/-- `CTL[15:13]`, reserved, must be 000. -/
def ctlRsv (ctl : CtlWord) : Nat := (ctl.extractLsb' 13 3).toNat

/-- The operand fields of a record as the place a command works on. -/
def Command.place (c : Command) : Place where
  srcLen := c.srcLen
  startByte := c.startByte
  startBit := c.startBit

/-! ## Decoding -/

/-- Why a control word selects no command (30_encoding.md R79). -/
inductive DecodeError where
  /-- `CTL[15:13]` is not 000. -/
  | reservedBits
  /-- `OPC` is 0000 or from 0111 to 1111. -/
  | unassignedOperation
deriving DecidableEq, Repr

/-- The decode procedure of 30_encoding.md R77 on a whole record: CTL alone selects the command (R70); the single-bit commands
ignore `CTL[12:4]`, and only INS reads VALUE_IN (R78). -/
def decode (c : Command) : Except DecodeError Instr :=
  if ctlRsv c.ctl ≠ 0 then .error .reservedBits
  else
    match ctlOpc c.ctl, ctlCap c.ctl with
    | 1, _ => .ok (.test c.place)
    | 2, _ => .ok (.setb c.place)
    | 3, _ => .ok (.clrb c.place)
    | 4, 0 => .ok (.extu8 c.place (ctlWidth c.ctl))
    | 4, 1 => .ok (.extu16 c.place (ctlWidth c.ctl))
    | 4, 2 => .ok (.extu32 c.place (ctlWidth c.ctl))
    | 4, _ => .ok (.extu64 c.place (ctlWidth c.ctl))
    | 5, 0 => .ok (.exts8 c.place (ctlWidth c.ctl))
    | 5, 1 => .ok (.exts16 c.place (ctlWidth c.ctl))
    | 5, 2 => .ok (.exts32 c.place (ctlWidth c.ctl))
    | 5, _ => .ok (.exts64 c.place (ctlWidth c.ctl))
    | 6, 0 => .ok (.ins8 c.place (ctlWidth c.ctl) c.valueIn)
    | 6, 1 => .ok (.ins16 c.place (ctlWidth c.ctl) c.valueIn)
    | 6, 2 => .ok (.ins32 c.place (ctlWidth c.ctl) c.valueIn)
    | 6, _ => .ok (.ins64 c.place (ctlWidth c.ctl) c.valueIn)
    | _, _ => .error .unassignedOperation

/-! ## The opcode table (30_encoding.md R76) -/

/-- One row of the table: the mnemonic and the match and mask on CTL that select it. -/
structure OpcodeRow where
  mnemonic : String
  pattern  : CtlWord
  mask     : CtlWord
deriving DecidableEq, Repr

/-- `CTL & mask = match`. -/
def OpcodeRow.selects (r : OpcodeRow) (ctl : CtlWord) : Bool := ctl &&& r.mask == r.pattern

/-- The fifteen rows of 30_encoding.md R76, in its order. -/
def opcodeTable : List OpcodeRow :=
  [ ⟨"TEST", 0x0001, 0xE00F⟩, ⟨"SETB", 0x0002, 0xE00F⟩, ⟨"CLRB", 0x0003, 0xE00F⟩ ] ++
  [ ⟨"EXTU.8", 0x0004, 0xE03F⟩, ⟨"EXTU.16", 0x0014, 0xE03F⟩, ⟨"EXTU.32", 0x0024, 0xE03F⟩, ⟨"EXTU.64", 0x0034, 0xE03F⟩ ] ++
  [ ⟨"EXTS.8", 0x0005, 0xE03F⟩, ⟨"EXTS.16", 0x0015, 0xE03F⟩, ⟨"EXTS.32", 0x0025, 0xE03F⟩, ⟨"EXTS.64", 0x0035, 0xE03F⟩ ] ++
  [ ⟨"INS.8", 0x0006, 0xE03F⟩, ⟨"INS.16", 0x0016, 0xE03F⟩, ⟨"INS.32", 0x0026, 0xE03F⟩, ⟨"INS.64", 0x0036, 0xE03F⟩ ]

/-- The name 30_encoding.md R76 gives each command. -/
def Instr.mnemonic : Instr → String
  | .test _ => "TEST"
  | .setb _ => "SETB"
  | .clrb _ => "CLRB"
  | .extu8 _ _ => "EXTU.8"
  | .extu16 _ _ => "EXTU.16"
  | .extu32 _ _ => "EXTU.32"
  | .extu64 _ _ => "EXTU.64"
  | .exts8 _ _ => "EXTS.8"
  | .exts16 _ _ => "EXTS.16"
  | .exts32 _ _ => "EXTS.32"
  | .exts64 _ _ => "EXTS.64"
  | .ins8 _ _ _ => "INS.8"
  | .ins16 _ _ _ => "INS.16"
  | .ins32 _ _ _ => "INS.32"
  | .ins64 _ _ _ => "INS.64"

/-! ## Encoding -/

/-- `CTL = (w << 6) | (capsel << 4) | OPC` (30_encoding.md R81). -/
def ctlOf (opc capsel width : Nat) : CtlWord := BitVec.ofNat 16 ((width <<< 6) ||| (capsel <<< 4) ||| opc)

/-- The record with a control word, a place and a supplied value. -/
def Command.of (ctl : CtlWord) (p : Place) (value : Bus) : Command where
  ctl := ctl
  startByte := p.startByte
  startBit := p.startBit
  srcLen := p.srcLen
  valueIn := value

/-- The record a command's notation assembles to (30_encoding.md R81): the canonical control word for the single-bit commands
(R78: WIDTH = 1, CAP = 00), and VALUE_IN zero where it is not an operand. -/
def encode : Instr → Command
  | .test p => .of (ctlOf 1 0 1) p 0
  | .setb p => .of (ctlOf 2 0 1) p 0
  | .clrb p => .of (ctlOf 3 0 1) p 0
  | .extu8 p width => .of (ctlOf 4 0 width) p 0
  | .extu16 p width => .of (ctlOf 4 1 width) p 0
  | .extu32 p width => .of (ctlOf 4 2 width) p 0
  | .extu64 p width => .of (ctlOf 4 3 width) p 0
  | .exts8 p width => .of (ctlOf 5 0 width) p 0
  | .exts16 p width => .of (ctlOf 5 1 width) p 0
  | .exts32 p width => .of (ctlOf 5 2 width) p 0
  | .exts64 p width => .of (ctlOf 5 3 width) p 0
  | .ins8 p width value => .of (ctlOf 6 0 width) p value
  | .ins16 p width value => .of (ctlOf 6 1 width) p value
  | .ins32 p width value => .of (ctlOf 6 2 width) p value
  | .ins64 p width value => .of (ctlOf 6 3 width) p value

/-! ## The record as one number

The spec gives the record no layout as one word: the fields stand in the order of R25's table, CTL in the low bits, because
spec/opcode_table.json numbers CTL's bits from 0 (log 9). Nothing in the machine uses it but the host's placing of a command. -/

/-- The record whose bits are `bits`, with `aw`-bit operand fields. -/
def Command.ofBits (aw bits : Nat) : Command where
  ctl := BitVec.ofNat 16 bits
  startByte := bits / 2 ^ 16 % 2 ^ aw
  startBit := bits / 2 ^ (16 + aw) % 2 ^ aw
  srcLen := bits / 2 ^ (16 + 2 * aw) % 2 ^ aw
  valueIn := BitVec.ofNat 64 (bits / 2 ^ (16 + 3 * aw))

/-- The bits of a record, with `aw`-bit operand fields. -/
def Command.toBits (aw : Nat) (c : Command) : Nat :=
  c.ctl.toNat + 2 ^ 16 * c.startByte + 2 ^ (16 + aw) * c.startBit + 2 ^ (16 + 2 * aw) * c.srcLen
    + 2 ^ (16 + 3 * aw) * c.valueIn.toNat

/-- The record of an instruction given by its low `nbits` bits, every bit above them 0. -/
def Command.ofTableWord (aw nbits w : Nat) : Command := .ofBits aw (w % 2 ^ nbits)

/-- The command the decoder reads from an instruction whose low `nbits` bits are `w`, at the spec's default AW
(the table gives 16 bits, CTL; the operand fields are then zero). -/
def decodeTableWord (nbits w : Nat) : Option Instr :=
  (decode (.ofTableWord Config.default.aw nbits w)).toOption

end Sys2Proof
end

