-- ==== Sys2Proof/Machine/State.lean ====
section
/-! DEFINITION. The state of the machine of 10_state.md R28 as plain data, the reasons a step can stop, and the state right
after reset. The CORE itself holds nothing (R20 to R24): the state is what crosses its boundary and the memory it works on. -/

namespace Sys2Proof.Machine

/-- STATUS: the outcome of a command (60_exceptions.md R200). Codes 6 and 7 are never produced and have no constructor (U7). -/
inductive Status where
  | ok
  | startOffsetTooBig
  | numberOfBitsTooBigForOutputType
  | outOfRange
  | zeroWidth
  | illegalCommand
deriving DecidableEq, Repr

/-- The response record, the whole output of one command other than its writes to the source memory (10_state.md R26). -/
structure Response where
  status   : Status
  valueOut : Bus
deriving DecidableEq, Repr

/-- How the host lends the source memory for a command: "immutably for reads, mutably for writes" (10_state.md R27). -/
inductive Borrow where
  /-- Read access only: other agents may be reading the same source (20_memory.md R55). -/
  | immutably
  /-- Read and write access, exclusive (20_memory.md R56, 43_host_operations.md R192). -/
  | mutably
deriving DecidableEq, Repr

/-- One access at the memory port: always one byte, at an index of the source memory (20_memory.md R43, R44). -/
inductive MemAccess where
  | read  (index : Nat)
  | write (index : Nat)
deriving DecidableEq, Repr

/-- The source memory (20_memory.md R40): the bytes of the storage the host has bound, by index. An index that is not listed
has no byte: the storage does not reach it (U2: no zeros for missing bytes; log 4). -/
abbrev Memory := List Host.Cell

/-- Reasons the machine stops with a fault. -/
inductive Fault where
  /-- An access to an index the storage has no byte at: MemRead and MemWrite are "defined only for" indices of the source
  (20_memory.md R43, R44). Raised by the transfers of Ops; no command reaches it, since its request was validated against a
  SRC_LEN the storage has (log 16). Safe. -/
  | noSuchByte
deriving DecidableEq, Repr

/-- Reasons the machine has no step. -/
inductive Refusal where
  /-- An instruction without a meaning yet. No arm answers it any more. Safe. -/
  | notModelled (mnemonic : String)
  /-- Raised by `step` when the host presents no command: the one kind of step is the execution of a command (10_state.md R28;
  log 3). Safe. -/
  | noCommand
  /-- Raised by `step` for a record with an operand that does not fit in AW bits: it "cannot be presented"
  (43_host_operations.md R191, U14; log 8). Safe. -/
  | operandTooWide
  /-- Raised by every command whose SRC_LEN is larger than the storage: a model "gives such a command no meaning (it refuses
  it)" (20_memory.md R42, 70_reset_and_hazards.md R231 item 2, U2; log 5). Safe. -/
  | srcLenBeyondStorage
  /-- Raised by a write command on storage lent immutably: "a command issued without them has no meaning in this spec (a model
  refuses it)" (70_reset_and_hazards.md R231 items 4 and 5; log 7). Safe. -/
  | notLentMutably
deriving DecidableEq, Repr

/-- The machine: the instance's parameters, what the host presents and lends, the source memory, and the last response. -/
structure State where
  /-- AW and ZERO_WIDTH_POLICY (00_scope.md R8): constants of the instance. -/
  config : Config
  /-- The commands the host presents, the next one first; each begins after the response of the one before
  (10_state.md R25, R28; log 2). -/
  hostCommands : List Command
  /-- How the host lends the source memory (10_state.md R27, 43_host_operations.md R192; log 7). -/
  borrow : Borrow
  /-- The source memory (10_state.md R27). -/
  mem : Memory
  /-- The response of the last command; none before the first, which has "no defined value" (10_state.md R30; log 10). -/
  response : Option Response
  /-- The model's own: the accesses the last command issued, oldest first (20_memory.md R50; log 11). -/
  accesses : List MemAccess
deriving DecidableEq, Repr

/-- The machine right after reset (10_state.md R30, 70_reset_and_hazards.md R230): nothing to set; no command presented, no
response, no storage bound; the parameters at the spec's defaults (logs 1, 2, 4, 7, 10, 11). -/
def State.reset : State where
  config := Config.default
  hostCommands := []
  borrow := .mutably
  mem := []
  response := none
  accesses := []

end Sys2Proof.Machine
end

