-- ==== Sys2Proof/Machine/Operands.lean ====
section
/-! DEFINITION. The operand forms of the commands: the place of a field, its span of bytes, the part of a field in one byte,
the supplied value and the forms of the result (40_addressor.md, 41_extract.md, 42_inject.md). All positions and widths are
natural numbers and all their arithmetic is exact (40_addressor.md R101). -/

namespace Sys2Proof

/-! ## What each command passes on (40_addressor.md R110) -/

/-- The place operand of a command. -/
def Instr.place : Instr → Place
  | .test p => p
  | .setb p => p
  | .clrb p => p
  | .extu8 p _ => p
  | .extu16 p _ => p
  | .extu32 p _ => p
  | .extu64 p _ => p
  | .exts8 p _ => p
  | .exts16 p _ => p
  | .exts32 p _ => p
  | .exts64 p _ => p
  | .ins8 p _ _ => p
  | .ins16 p _ _ => p
  | .ins32 p _ _ => p
  | .ins64 p _ _ => p

/-- The width of the field a command works on: 1 for the single-bit commands (30_encoding.md R78). -/
def Instr.width : Instr → Nat
  | .test _ => 1
  | .setb _ => 1
  | .clrb _ => 1
  | .extu8 _ w => w
  | .extu16 _ w => w
  | .extu32 _ w => w
  | .extu64 _ w => w
  | .exts8 _ w => w
  | .exts16 _ w => w
  | .exts32 _ w => w
  | .exts64 _ w => w
  | .ins8 _ w _ => w
  | .ins16 _ w _ => w
  | .ins32 _ w _ => w
  | .ins64 _ w _ => w

/-- The capacity a command is checked against: 1 for the single-bit commands (D21). -/
def Instr.capacity : Instr → Nat
  | .test _ => 1
  | .setb _ => 1
  | .clrb _ => 1
  | .extu8 _ _ => 8
  | .extu16 _ _ => 16
  | .extu32 _ _ => 32
  | .extu64 _ _ => 64
  | .exts8 _ _ => 8
  | .exts16 _ _ => 16
  | .exts32 _ _ => 32
  | .exts64 _ _ => 64
  | .ins8 _ _ _ => 8
  | .ins16 _ _ _ => 16
  | .ins32 _ _ _ => 32
  | .ins64 _ _ _ => 64

/-- The write commands: SETB, CLRB and INS (10_state.md R29). -/
def Instr.writes : Instr → Bool
  | .test _ => false
  | .setb _ => true
  | .clrb _ => true
  | .extu8 _ _ => false
  | .extu16 _ _ => false
  | .extu32 _ _ => false
  | .extu64 _ _ => false
  | .exts8 _ _ => false
  | .exts16 _ _ => false
  | .exts32 _ _ => false
  | .exts64 _ _ => false
  | .ins8 _ _ _ => true
  | .ins16 _ _ _ => true
  | .ins32 _ _ _ => true
  | .ins64 _ _ _ => true

/-! ## The place of a field -/

/-- `abs = 8 * START_BYTE + START_BIT`, the position of the field's first bit (30_encoding.md R75, 40_addressor.md R102). -/
def Place.abs (p : Place) : Nat := 8 * p.startByte + p.startBit

/-- `total = 8 * SRC_LEN`, the bit length of the source (40_addressor.md R100). -/
def Place.total (p : Place) : Nat := 8 * p.srcLen

/-! ## The span (40_addressor.md R106) -/

/-- The first byte of the span. -/
def firstByte (abs : Nat) : Nat := abs / 8

/-- The last byte of the span of a field of width at least 1. -/
def lastByte (abs width : Nat) : Nat := (abs + width - 1) / 8

/-- How many bytes the span holds: none for width 0. -/
def spanLen (abs width : Nat) : Nat :=
  if width = 0 then 0 else lastByte abs width - firstByte abs + 1

/-- The byte indices of the span, in ascending order. -/
def span (abs width : Nat) : List Nat := List.range' (firstByte abs) (spanLen abs width)

/-- `lo(i)`: the position in byte `i` of the first field bit there. -/
def fieldLo (abs i : Nat) : Nat := max abs (8 * i) - 8 * i

/-- `hi(i)`: the position in byte `i` of the last field bit there. -/
def fieldHi (abs width i : Nat) : Nat := min (abs + width - 1) (8 * i + 7) - 8 * i

/-- `n(i) = hi(i) - lo(i) + 1`: how many field bits byte `i` holds. -/
def fieldBits (abs width i : Nat) : Nat := fieldHi abs width i - fieldLo abs i + 1

/-! ## The part of a field in one byte -/

/-- `chunk`: the field bits of byte `i`, right-aligned (41_extract.md R121). -/
def readChunk (abs width i : Nat) (b : Byte) : Nat :=
  (b.toNat >>> (7 - fieldHi abs width i)) &&& (2 ^ fieldBits abs width i - 1)

/-- `mask`: ones exactly at the positions `lo .. hi` of byte `i` (42_inject.md R151). -/
def fieldMask (abs width i : Nat) : Byte :=
  BitVec.ofNat 8 ((2 ^ fieldBits abs width i - 1) <<< (7 - fieldHi abs width i))

/-- `r`: the number of field bits after byte `i` (42_inject.md R151). -/
def bitsAfter (abs width i : Nat) : Nat := (abs + width - 1) - (8 * i + fieldHi abs width i)

/-- `vbits`: the bits of the value that land in byte `i` (42_inject.md R151). -/
def valueChunk (abs width i v : Nat) : Nat :=
  (v >>> bitsAfter abs width i) &&& (2 ^ fieldBits abs width i - 1)

/-- `b'`: byte `i` with its field bits replaced by those of the value and every other bit kept (42_inject.md R151). -/
def patchByte (abs width v i : Nat) (b : Byte) : Byte :=
  (b &&& ~~~(fieldMask abs width i))
    ||| (BitVec.ofNat 8 (valueChunk abs width i v <<< (7 - fieldHi abs width i)) &&& fieldMask abs width i)

/-! ## Values -/

/-- `trunc_width(VALUE)`: the low `width` bits of the supplied value (42_inject.md R152). -/
def truncValue (width : Nat) (value : Bus) : Nat := value.toNat % 2 ^ width

/-- `zext_64(u)` (41_extract.md R123). -/
def zextResult (u : Nat) : Bus := BitVec.ofNat 64 u

/-- `zext_64(sext_cap(u))`, `u` taken as a `width`-bit value: sign-extended within the capacity, zero above it
(41_extract.md R124). -/
def sextResult (cap width u : Nat) : Bus := ((BitVec.ofNat width u).signExtend cap).setWidth 64

end Sys2Proof
end

