-- ==== Sys2Proof/Machine/Flags.lean ====
section
/-! DEFINITION. The CORE has no flags (10_state.md R22); what stands in their place is the STATUS of the response: its code,
and the Bit Addressor, which computes it (40_addressor.md). -/

namespace Sys2Proof.Machine

/-- The wire form of a status, 3 bits (60_exceptions.md R200). -/
def Status.code : Status → BitVec 3
  | .ok => 0
  | .startOffsetTooBig => 1
  | .numberOfBitsTooBigForOutputType => 2
  | .outOfRange => 3
  | .zeroWidth => 4
  | .illegalCommand => 5

/-- The Bit Addressor (40_addressor.md R100): the position of the validated field, or the status of the first check that fails. -/
def validate (policy : ZeroWidthPolicy) (p : Place) (width cap : Nat) : Except Status Nat :=
  if policy = .reject ∧ width = 0 then .error .zeroWidth
  else if p.total ≤ p.abs then .error .startOffsetTooBig
  else if cap < width then .error .numberOfBitsTooBigForOutputType
  else if p.total < p.abs + width then .error .outOfRange
  else .ok p.abs

end Sys2Proof.Machine
end

