-- ==== Sys2Proof/Machine/Ops.lean ====
section
/-! DEFINITION. The named operations over the memory and the state: byte accesses, the two byte walks, raising a failure,
responding, and the two shapes of a command, reading and writing, that the meanings are one line over. -/

namespace Sys2Proof.Machine

/-! ## The source memory (20_memory.md R40 to R44) -/

/-- The canonical form: indices strictly rising. An unlisted index reads as no byte, so no entry equals what it reads as. -/
def Memory.wf (m : Memory) : Bool := decide (m.Pairwise fun x y => x.1 < y.1)

/-- The byte `src[i]`, if the storage has one there. -/
def Memory.read (m : Memory) (i : Nat) : Option Byte :=
  match m with
  | [] => none
  | c :: m => if c.1 = i then some c.2 else Memory.read m i

/-- `src[i]` replaced by `b`, in place; the number of bytes never changes (20_memory.md R42, R44). -/
def Memory.set (m : Memory) (i : Nat) (b : Byte) : Memory :=
  m.map fun c => if c.1 = i then (c.1, b) else c

/-- The number of consecutive bytes listed from index `k` on, added to `k`. -/
def Memory.sizeFrom (k : Nat) (m : Memory) : Nat :=
  match m with
  | [] => k
  | c :: m => if c.1 = k then Memory.sizeFrom (k + 1) m else k

/-- The byte count of the storage: the indices `0 .. size - 1` all hold a byte (20_memory.md R40). -/
def Memory.size (m : Memory) : Nat := Memory.sizeFrom 0 m

/-! ## Byte accesses (20_memory.md R43, R44, R50) -/

/-- The accesses of a command so far, with one more. -/
def State.logAccess (s : State) (a : MemAccess) : State := { s with accesses := s.accesses ++ [a] }

/-- The state at the start of a transfer: the port has issued nothing for this command. -/
def State.beginTransfer (s : State) : State := { s with accesses := [] }

/-- The state with the source memory replaced. -/
def State.withMem (s : State) (m : Memory) : State := { s with mem := m }

/-- `MemRead(i, 1)`. -/
def State.memRead (s : State) (i : Nat) : Option (Byte × State) :=
  match s.mem.read i with
  | none => none
  | some b => some (b, s.logAccess (.read i))

/-- `MemWrite(i, 1, b)`. -/
def State.memWrite (s : State) (i : Nat) (b : Byte) : Option State :=
  match s.mem.read i with
  | none => none
  | some _ => some ((s.withMem (s.mem.set i b)).logAccess (.write i))

/-! ## The byte walks -/

/-- `ExtractWalk` (41_extract.md R121) over the `n` bytes from index `i`, with the accumulator so far. -/
def extractWalk (abs width : Nat) : (n i acc : Nat) → State → Option (Nat × State)
  | 0, _, acc, s => some (acc, s)
  | n + 1, i, acc, s =>
    match s.memRead i with
    | none => none
    | some (b, s) =>
      extractWalk abs width n (i + 1) ((acc <<< fieldBits abs width i) ||| readChunk abs width i b) s

/-- The field `(abs, width)` read from the source: its value and the state after the reads. Width 0 reads nothing and gives 0
(40_addressor.md R108). -/
def State.extractField (s : State) (abs width : Nat) : Option (Nat × State) :=
  extractWalk abs width (spanLen abs width) (firstByte abs) 0 s.beginTransfer

/-- `InjectWalk` (42_inject.md R151) over the `n` bytes from index `i`: each is read, patched and written. -/
def injectWalk (abs width v : Nat) : (n i : Nat) → State → Option State
  | 0, _, s => some s
  | n + 1, i, s =>
    match s.memRead i with
    | none => none
    | some (b, s) =>
      match s.memWrite i (patchByte abs width v i b) with
      | none => none
      | some s => injectWalk abs width v n (i + 1) s

/-- The value `v` written into the field `(abs, width)` of the source. Width 0 writes nothing (40_addressor.md R108). -/
def State.injectField (s : State) (abs width v : Nat) : Option State :=
  injectWalk abs width v (spanLen abs width) (firstByte abs) s.beginTransfer

/-! ## The end of a command (60_exceptions.md R203, 00_scope.md R10's primitives) -/

/-- `raise <Status>`, the CORE's one kind of exception (60_exceptions.md R203): the response is the status with VALUE_OUT = 0;
no access is issued for the command, the memory is as it was and nothing is recorded anywhere else. There is no trap entry
(R212) and so no return from one (R215). -/
def State.raise (s : State) (status : Status) : State :=
  { s with response := some ⟨status, 0⟩, accesses := [] }

/-- `respond(OK, v)`. -/
def State.respond (s : State) (v : Bus) : State := { s with response := some ⟨.ok, v⟩ }

/-! ## The two shapes of a command (00_scope.md R2: validate, then transfer, then respond) -/

/-- A read command: the host's SRC_LEN must be true (70_reset_and_hazards.md R231); the request is validated; the field is read
and `result` forms VALUE_OUT from its value. -/
def runRead (p : Place) (width cap : Nat) (result : Nat → Bus) (s : State) : Host.Outcome State Fault Refusal :=
  if s.mem.size < p.srcLen then .refused .srcLenBeyondStorage
  else
    match validate s.config.zeroWidthPolicy p width cap with
    | .error status => .next (s.raise status)
    | .ok abs =>
      match s.extractField abs width with
      | none => .fault .noSuchByte
      | some (u, t) => .next (t.respond (result u))

/-- A write command: the host's SRC_LEN must be true and the storage lent mutably (70_reset_and_hazards.md R231); the request is
validated; the low `width` bits of the value are written (42_inject.md R152); VALUE_OUT = 0 (R161). -/
def runWrite (p : Place) (width cap : Nat) (value : Bus) (s : State) : Host.Outcome State Fault Refusal :=
  if s.mem.size < p.srcLen then .refused .srcLenBeyondStorage
  else if s.borrow = .immutably then .refused .notLentMutably
  else
    match validate s.config.zeroWidthPolicy p width cap with
    | .error status => .next (s.raise status)
    | .ok abs =>
      match s.injectField abs width (truncValue width value) with
      | none => .fault .noSuchByte
      | some t => .next (t.respond 0)

/-! ## Taking the next command -/

/-- The state after the host's next command has been taken. -/
def State.withHostCommands (s : State) (cs : List Command) : State := { s with hostCommands := cs }

/-- The command the host presents next, and the state with it taken. -/
def State.nextCommand (s : State) : Option (Command × State) :=
  match s.hostCommands with
  | [] => none
  | c :: rest => some (c, s.withHostCommands rest)

/-- The answer to a control word that selects no command, whatever the other fields hold (30_encoding.md R77, R79;
60_exceptions.md R208; log 6). -/
def illegalCommand (_why : DecodeError) (s : State) : Host.Outcome State Fault Refusal :=
  .next (s.raise .illegalCommand)

end Sys2Proof.Machine
end

