-- ==== Sys2Proof/Machine/Extract.lean ====
section
/-! DEFINITION. The multi-bit read commands EXTU and EXTS (41_extract.md): the field value, unsigned or sign-extended within the
capacity. -/

namespace Sys2Proof.Machine

/-- EXTU.8 (41_extract.md R126). -/
def execExtu8 (p : Place) (width : Nat) (s : State) : Host.Outcome State Fault Refusal :=
  runRead p width 8 zextResult s

/-- EXTU.16 (41_extract.md R127). -/
def execExtu16 (p : Place) (width : Nat) (s : State) : Host.Outcome State Fault Refusal :=
  runRead p width 16 zextResult s

/-- EXTU.32 (41_extract.md R128). -/
def execExtu32 (p : Place) (width : Nat) (s : State) : Host.Outcome State Fault Refusal :=
  runRead p width 32 zextResult s

/-- EXTU.64 (41_extract.md R129). -/
def execExtu64 (p : Place) (width : Nat) (s : State) : Host.Outcome State Fault Refusal :=
  runRead p width 64 zextResult s

/-- EXTS.8 (41_extract.md R130). -/
def execExts8 (p : Place) (width : Nat) (s : State) : Host.Outcome State Fault Refusal :=
  runRead p width 8 (sextResult 8 width) s

/-- EXTS.16 (41_extract.md R131). -/
def execExts16 (p : Place) (width : Nat) (s : State) : Host.Outcome State Fault Refusal :=
  runRead p width 16 (sextResult 16 width) s

/-- EXTS.32 (41_extract.md R132). -/
def execExts32 (p : Place) (width : Nat) (s : State) : Host.Outcome State Fault Refusal :=
  runRead p width 32 (sextResult 32 width) s

/-- EXTS.64 (41_extract.md R133). -/
def execExts64 (p : Place) (width : Nat) (s : State) : Host.Outcome State Fault Refusal :=
  runRead p width 64 (sextResult 64 width) s

end Sys2Proof.Machine
end

