-- ==== Sys2Proof/Machine/Inject.lean ====
section
/-! DEFINITION. The multi-bit write commands INS (42_inject.md): the low WIDTH bits of VALUE_IN into the field. -/

namespace Sys2Proof.Machine

/-- INS.8 (42_inject.md R156). -/
def execIns8 (p : Place) (width : Nat) (value : Bus) (s : State) : Host.Outcome State Fault Refusal :=
  runWrite p width 8 value s

/-- INS.16 (42_inject.md R157). -/
def execIns16 (p : Place) (width : Nat) (value : Bus) (s : State) : Host.Outcome State Fault Refusal :=
  runWrite p width 16 value s

/-- INS.32 (42_inject.md R158). -/
def execIns32 (p : Place) (width : Nat) (value : Bus) (s : State) : Host.Outcome State Fault Refusal :=
  runWrite p width 32 value s

/-- INS.64 (42_inject.md R159). -/
def execIns64 (p : Place) (width : Nat) (value : Bus) (s : State) : Host.Outcome State Fault Refusal :=
  runWrite p width 64 value s

end Sys2Proof.Machine
end

