-- ==== Sys2Proof/Machine/SingleBit.lean ====
section
/-! DEFINITION. The single-bit commands TEST, SETB and CLRB: width 1, capacity 1 (30_encoding.md R78, 40_addressor.md R110, D21; log 12). -/

namespace Sys2Proof.Machine

/-- TEST (41_extract.md R125): VALUE_OUT is the bit. -/
def execTest (p : Place) (s : State) : Host.Outcome State Fault Refusal := runRead p 1 1 zextResult s

/-- SETB (42_inject.md R154): the bit is forced to 1. -/
def execSetb (p : Place) (s : State) : Host.Outcome State Fault Refusal := runWrite p 1 1 1 s

/-- CLRB (42_inject.md R155): the bit is forced to 0. -/
def execClrb (p : Place) (s : State) : Host.Outcome State Fault Refusal := runWrite p 1 1 0 s

end Sys2Proof.Machine
end

