-- ==== Sys2Proof/Machine/Dispatch.lean ====
section
/-! DEFINITION. The dispatch from a command to its meaning: one arm per constructor of Instr. -/

namespace Sys2Proof.Machine

def exec (i : Instr) (s : State) : Host.Outcome State Fault Refusal :=
  match i with
  | .test p => Sys2Proof.Machine.execTest p s
  | .setb p => Sys2Proof.Machine.execSetb p s
  | .clrb p => Sys2Proof.Machine.execClrb p s
  | .extu8 p width => Sys2Proof.Machine.execExtu8 p width s
  | .extu16 p width => Sys2Proof.Machine.execExtu16 p width s
  | .extu32 p width => Sys2Proof.Machine.execExtu32 p width s
  | .extu64 p width => Sys2Proof.Machine.execExtu64 p width s
  | .exts8 p width => Sys2Proof.Machine.execExts8 p width s
  | .exts16 p width => Sys2Proof.Machine.execExts16 p width s
  | .exts32 p width => Sys2Proof.Machine.execExts32 p width s
  | .exts64 p width => Sys2Proof.Machine.execExts64 p width s
  | .ins8 p width value => Sys2Proof.Machine.execIns8 p width value s
  | .ins16 p width value => Sys2Proof.Machine.execIns16 p width value s
  | .ins32 p width value => Sys2Proof.Machine.execIns32 p width value s
  | .ins64 p width value => Sys2Proof.Machine.execIns64 p width value s

end Sys2Proof.Machine
end

