-- ==== Sys2Proof/Machine/Run.lean ====
section
/-! DEFINITION. The execution of one command record, and of the host's next one (10_state.md R28). -/

namespace Sys2Proof.Machine

/-- The execution of one command record: decode first (30_encoding.md R77), then the command's meaning. A record with an operand
that does not fit in AW bits cannot be presented (43_host_operations.md R191, U14; log 8). -/
def runCommand (c : Command) (s : State) : Host.Outcome State Fault Refusal :=
  if c.fits s.config.aw then
    match decode c with
    | .error why => illegalCommand why s
    | .ok i => exec i s
  else .refused .operandTooWide

/-- The execution of the command the host presents next; with none presented there is no step (10_state.md R28; log 3). -/
def runNext (s : State) : Host.Outcome State Fault Refusal :=
  match s.nextCommand with
  | none => .refused .noCommand
  | some (c, t) => runCommand c t

end Sys2Proof.Machine
end

