-- ==== Sys2Proof/Machine/Step.lean ====
section
/-! DEFINITION. One step: the execution of the command the host presents (10_state.md R28), and the placing of a command as the
next one. -/

namespace Sys2Proof.Machine

/-- One step of the machine. -/
def step (s : State) : Host.Outcome State Fault Refusal := runNext s

/-- `s` with the instruction whose low `nbits` bits are `w` (every bit above them 0) as the command the host presents next;
the commands that were next follow it (logs 2, 9). -/
def State.withFetchWord (s : State) (nbits w : Nat) : State :=
  s.withHostCommands (.ofTableWord s.config.aw nbits w :: s.hostCommands)

end Sys2Proof.Machine
end

