-- ==== Sys2Proof/Machine/HostOps.lean ====
section
/-! DEFINITION. BITLAB's public operations as commands (43_host_operations.md): the two call shapes, the binding of a single
integer as a source, and what the caller gets back. A model of the CORE needs only the commands; this file is the host's side,
so that claims can be made in BITLAB's terms (log 19). -/

namespace Sys2Proof.Machine

/-- The capacities of the target types (00_scope.md R7, 30_encoding.md R73). -/
inductive Capacity where
  | cap8
  | cap16
  | cap32
  | cap64
deriving DecidableEq, Repr

/-- The bit width of a capacity. -/
def capacityBits : Capacity → Nat
  | .cap8 => 8
  | .cap16 => 16
  | .cap32 => 32
  | .cap64 => 64

/-- EXTU.c. -/
def extuOf : Capacity → Place → Nat → Instr
  | .cap8 => .extu8
  | .cap16 => .extu16
  | .cap32 => .extu32
  | .cap64 => .extu64

/-- EXTS.c. -/
def extsOf : Capacity → Place → Nat → Instr
  | .cap8 => .exts8
  | .cap16 => .exts16
  | .cap32 => .exts32
  | .cap64 => .exts64

/-- INS.c. -/
def insOf : Capacity → Place → Nat → Bus → Instr
  | .cap8 => .ins8
  | .cap16 => .ins16
  | .cap32 => .ins32
  | .cap64 => .ins64

/-! ## The two call shapes (43_host_operations.md R180, R181) -/

/-- The sizes of a single-integer source: 1, 2, 4 or 8 bytes. -/
inductive IntSize where
  | bytes1
  | bytes2
  | bytes4
  | bytes8
deriving DecidableEq, Repr

/-- The byte count of a single-integer source. -/
def intBytes : IntSize → Nat
  | .bytes1 => 1
  | .bytes2 => 2
  | .bytes4 => 4
  | .bytes8 => 8

/-- Where an operation works: one bit offset on a single integer, or a byte and a bit offset on a sequence of a length. One absolute
offset `a` on a sequence is byte 0 and bit `a` (43_host_operations.md R182). -/
inductive Shape where
  | single (size : IntSize) (off : Nat)
  | sequence (len byte bit : Nat)
deriving DecidableEq, Repr

/-- How the host fills SRC_LEN, START_BYTE and START_BIT (43_host_operations.md R181, R182). -/
def shapePlace : Shape → Place
  | .single size off => ⟨intBytes size, 0, off⟩
  | .sequence len byte bit => ⟨len, byte, bit⟩

/-- The width the host issues: a width above 127 as 127 (43_host_operations.md R191). -/
def issuedWidth (width : Nat) : Nat := min width 127

/-- BITLAB's public operations (43_host_operations.md section 2). -/
inductive HostOp where
  | getBit   (at_ : Shape)
  | setBit   (at_ : Shape)
  | clearBit (at_ : Shape)
  | getU     (c : Capacity) (at_ : Shape) (width : Nat)
  | getI     (c : Capacity) (at_ : Shape) (width : Nat)
  /-- `set_u{c}` on a single integer. -/
  | setU     (c : Capacity) (size : IntSize) (off width : Nat) (value : Bus)
  /-- `set` on a sequence; `c` is the capacity of the value's type, if it has a declared one. -/
  | set      (c : Option Capacity) (len byte bit width : Nat) (value : Bus)
deriving DecidableEq, Repr

/-- The command an operation expands to (43_host_operations.md R182 to R188). -/
def hostCommand : HostOp → Instr
  | .getBit sh => .test (shapePlace sh)
  | .setBit sh => .setb (shapePlace sh)
  | .clearBit sh => .clrb (shapePlace sh)
  | .getU c sh width => extuOf c (shapePlace sh) (issuedWidth width)
  | .getI c sh width => extsOf c (shapePlace sh) (issuedWidth width)
  | .setU c size off width value => insOf c (shapePlace (.single size off)) (issuedWidth width) value
  | .set c len byte bit width value =>
    insOf (c.getD .cap64) (shapePlace (.sequence len byte bit)) (issuedWidth width) value

/-! ## A single integer as a source (20_memory.md R46, 43_host_operations.md R181, R189) -/

/-- The integer of `n` bytes with the bit pattern `v`, in big-endian order: `src[i] = V[8(N-i)-1 : 8(N-i-1)]`. -/
def presentInteger (n v : Nat) : Memory :=
  (List.range n).map fun i => (i, BitVec.ofNat 8 (v / 2 ^ (8 * (n - 1 - i))))

/-- The first `n` bytes re-assembled: `src[0] ++ src[1] ++ ... ++ src[N-1]`. -/
def Memory.integer (m : Memory) : (n : Nat) → Option Nat
  | 0 => some 0
  | n + 1 =>
    match Memory.integer m n, m.read n with
    | some v, some b => some (256 * v + b.toNat)
    | _, _ => none

/-! ## Running an operation: bind the source, issue the command, form the output (43_host_operations.md R181 to R189) -/

/-- The shape an operation is called in. -/
def hostShape : HostOp → Shape
  | .getBit sh => sh
  | .setBit sh => sh
  | .clearBit sh => sh
  | .getU _ sh _ => sh
  | .getI _ sh _ => sh
  | .setU _ size off _ _ => .single size off
  | .set _ len byte bit _ _ => .sequence len byte bit

/-- The state in which the host runs a command on a copy of an integer of `n` bytes, lent mutably. -/
def State.onCopy (s : State) (n v : Nat) : State := { s with mem := presentInteger n v, borrow := .mutably }

/-- The state with the source of a shape bound (R181): a copy of the integer `v`, or the storage itself. -/
def State.bound (s : State) (sh : Shape) (v : Nat) : State :=
  match sh with
  | .single size _ => s.onCopy (intBytes size) v
  | .sequence _ _ _ => s

/-- The state once the command has run in `t`, with the storage and its borrow as the host has them: a copy is discarded, "the
original being left as it was" (42_inject.md R161); a sequence was changed in place (R189). -/
def State.unbound (s : State) (sh : Shape) (t : State) : State :=
  match sh with
  | .single _ _ => { t with mem := s.mem, borrow := s.borrow }
  | .sequence _ _ _ => t

/-- What an operation gives its caller. -/
inductive HostResult where
  /-- The boolean of `get_bit` (R182). -/
  | boolean (b : Bool)
  /-- The integer of `get_u{c}` and `get_i{c}`, as its bit pattern: the low `c` bits of VALUE_OUT (R185, R186). -/
  | pattern (c : Capacity) (u : Nat)
  /-- The new integer of a single-integer write (R189), as its bit pattern. -/
  | integer (v : Nat)
  /-- A sequence write: the sequence was changed in place, nothing else is returned (R189). -/
  | changedInPlace
  /-- The failure, and no value. -/
  | failure (status : Status)
deriving DecidableEq, Repr

/-- `VALUE_OUT[c-1:0]`. -/
def lowBits (c : Capacity) (value : Bus) : Nat := value.toNat % 2 ^ capacityBits c

/-- The output of a write that ended OK (R189): the copy re-assembled, or nothing beside the changed sequence. -/
def writtenStorage (sh : Shape) (m : Memory) : Option HostResult :=
  match sh with
  | .single size _ => (m.integer (intBytes size)).map .integer
  | .sequence _ _ _ => some .changedInPlace

/-- The output of an operation whose command ended OK with the value `value` and left the source `m`. -/
def hostOutput (op : HostOp) (value : Bus) (m : Memory) : Option HostResult :=
  match op with
  | .getBit _ => some (.boolean (value.getLsbD 0))
  | .getU c _ _ => some (.pattern c (lowBits c value))
  | .getI c _ _ => some (.pattern c (lowBits c value))
  | .setBit sh => writtenStorage sh m
  | .clearBit sh => writtenStorage sh m
  | .setU _ size off _ _ => writtenStorage (.single size off) m
  | .set _ len byte bit _ _ => writtenStorage (.sequence len byte bit) m

/-- What the caller gets from a response: the output on OK, the failure and no value otherwise (R189). -/
def hostResult (op : HostOp) (r : Response) (m : Memory) : Option HostResult :=
  if r.status = .ok then hostOutput op r.valueOut m else some (.failure r.status)

/-- An operation, run: what its caller gets and the state after it. `v` is the bit pattern of the integer a single-integer operation
works on, and is not looked at in the sequence shape. Nothing where the command had no next state. -/
def runHostOp (op : HostOp) (v : Nat) (s : State) : Option (HostResult × State) :=
  match exec (hostCommand op) (s.bound (hostShape op) v) with
  | .next t =>
    match t.response with
    | none => none
    | some r => (hostResult op r t.mem).map fun result => (result, s.unbound (hostShape op) t)
  | .fault _ => none
  | .refused _ => none

end Sys2Proof.Machine
end

