-- ==== Sys2Proof/Machine/Stream.lean ====
section
/-! DEFINITION. The virtual bit stream of a source (00_scope.md R10) and the field value on it (41_extract.md R120): the spec's
bit-by-bit meaning of a field, beside the byte walks that compute it. Statements are made in these terms. -/

namespace Sys2Proof.Machine

/-- The bit of a byte at a position, 0 the most significant: `pos(b, p) = b[7 - p]` (00_scope.md R9). -/
def bitAt (b : Byte) (position : Nat) : Bool := b.getLsbD (7 - position)

/-- `s[k] = src[k div 8][7 - (k mod 8)]`, where the storage has that byte (00_scope.md R10, 20_memory.md R45). -/
def Memory.bit (m : Memory) (k : Nat) : Option Bool := (m.read (k / 8)).map fun b => bitAt b (k % 8)

/-- The field value `(abs, width)` (41_extract.md R120): the first bit is the most significant; 0 for width 0. -/
def Memory.fieldValue (m : Memory) (abs : Nat) : (width : Nat) → Option Nat
  | 0 => some 0
  | w + 1 =>
    match Memory.fieldValue m abs w, m.bit (abs + w) with
    | some u, some b => some (2 * u + b.toNat)
    | _, _ => none

end Sys2Proof.Machine
end

