-- ==== Sys2Proof/Safety.lean ====
section
/-! DEFINITION. The terms claims use: what the host must have granted a command, the invariant every step keeps, and the parts
of an outcome. -/

namespace Sys2Proof.Machine

/-- The host's duties for a command (70_reset_and_hazards.md R231 items 1, 2, 4 and 5): the storage has the SRC_LEN bytes the
command says and, for a write command, is lent mutably. -/
def State.grants (s : State) (i : Instr) : Bool :=
  decide (i.place.srcLen ≤ s.mem.size) && (!i.writes || s.borrow == .mutably)

/-- The same command at another place. -/
def withPlace (p : Place) : Instr → Instr
  | .test _ => .test p
  | .setb _ => .setb p
  | .clrb _ => .clrb p
  | .extu8 _ w => .extu8 p w
  | .extu16 _ w => .extu16 p w
  | .extu32 _ w => .extu32 p w
  | .extu64 _ w => .extu64 p w
  | .exts8 _ w => .exts8 p w
  | .exts16 _ w => .exts16 p w
  | .exts32 _ w => .exts32 p w
  | .exts64 _ w => .exts64 p w
  | .ins8 _ w v => .ins8 p w v
  | .ins16 _ w v => .ins16 p w v
  | .ins32 _ w v => .ins32 p w v
  | .ins64 _ w v => .ins64 p w v

/-- The index an access is at. -/
def accessIndex : MemAccess → Nat
  | .read i => i
  | .write i => i

/-- An access that writes. -/
def isWrite : MemAccess → Bool
  | .read _ => false
  | .write _ => true

/-- The accesses of a read command on a field: each byte of the span once, ascending (20_memory.md R50). -/
def readAccesses (abs width : Nat) : List MemAccess := (span abs width).map .read

/-- The accesses of a write command on a field: each byte of the span read, then written, ascending
(20_memory.md R50). -/
def writeAccesses (abs width : Nat) : List MemAccess := (span abs width).flatMap fun i => [.read i, .write i]

/-- The status of the last response, if there is one. -/
def State.status (s : State) : Option Status := s.response.map Response.status

/-- A response that failed carries VALUE_OUT = 0 and its command issued no access; with no response there was no command
(10_state.md R26, 60_exceptions.md R203). -/
def State.responseOk (s : State) : Bool :=
  match s.response with
  | none => s.accesses.isEmpty
  | some r => r.status == .ok || (r.valueOut == 0 && s.accesses.isEmpty)

/-- The last command touched only bytes of the storage, at most 9 reads and at most 9 writes (70_reset_and_hazards.md R234). -/
def State.accessesOk (s : State) : Bool :=
  s.accesses.all (fun a => decide (accessIndex a < s.mem.size))
    && decide (s.accesses.countP isWrite ≤ 9) && decide (s.accesses.countP (fun a => !isWrite a) ≤ 9)

/-- The invariant every step keeps: memory in canonical form, a failed response empty, and the accesses in bounds. -/
def State.inv (s : State) : Bool := s.mem.wf && s.responseOk && s.accessesOk

end Sys2Proof.Machine
end

