-- ==== Sys2Proof/Certificates/Slice0/Obligations.lean ====
section
/-! DEFINITION. The statements about the model, from the numbered rules of spec/. `exec` is one command's meaning, `step` one step
of the machine. A command is GRANTED where the host has met its duties (70_reset_and_hazards.md R231): `State.grants`. -/

open Sys2Proof Sys2Proof.Machine

/-! ## Encoding -/

/-- Every well-formed command, encoded and decoded, is itself, with every operand (30_encoding.md R71, R77, R81). -/
def Obligations.DecodingAnEncodedCommandGivesItBack : Prop :=
  ∀ (aw : Nat) (i : Instr), i.wf aw = true → decode (encode i) = .ok i

/-- A record whose operands fit, laid out as one number and read back, is itself: no field of 10_state.md R25 is dropped. The
layout is the model's choice (log 9). -/
def Obligations.RecordAsOneNumberReadsBack : Prop :=
  ∀ (aw : Nat) (c : Command), c.fits aw = true → Command.ofBits aw (c.toBits aw) = c

/-- Control words of 30_encoding.md's worked encodings, written out bit by bit, decode to their commands. -/
def Obligations.WorkedControlWordsDecode : Prop :=
  ∀ (n b k : Nat) (v : Bus),
    decode ⟨0b0000000001000001, b, k, n, v⟩ = .ok (.test ⟨n, b, k⟩) ∧
    decode ⟨0b0000000001000010, b, k, n, v⟩ = .ok (.setb ⟨n, b, k⟩) ∧
    decode ⟨0b0000000001000011, b, k, n, v⟩ = .ok (.clrb ⟨n, b, k⟩) ∧
    decode ⟨0b0000000011000100, b, k, n, v⟩ = .ok (.extu8 ⟨n, b, k⟩ 3) ∧
    decode ⟨0b0001000000110100, b, k, n, v⟩ = .ok (.extu64 ⟨n, b, k⟩ 64) ∧
    decode ⟨0b0000010001100101, b, k, n, v⟩ = .ok (.exts32 ⟨n, b, k⟩ 17) ∧
    decode ⟨0b0000000010000110, b, k, n, v⟩ = .ok (.ins8 ⟨n, b, k⟩ 2 v) ∧
    decode ⟨0b0000000010110110, b, k, n, v⟩ = .ok (.ins64 ⟨n, b, k⟩ 2 v)

/-- The decoder is the opcode table (30_encoding.md R76): a control word a row selects decodes to that row's command, one that no
row selects decodes to none, and no control word is selected by two rows. -/
def Obligations.DecoderFollowsTheOpcodeTable : Prop :=
  (∀ (c : Command) (r : OpcodeRow), r ∈ opcodeTable → r.selects c.ctl = true →
      ∃ i, decode c = .ok i ∧ i.mnemonic = r.mnemonic) ∧
    (∀ c : Command, (∀ r ∈ opcodeTable, r.selects c.ctl = false) → ∃ e, decode c = .error e) ∧
    (∀ (ctl : CtlWord) (r r' : OpcodeRow), r ∈ opcodeTable → r' ∈ opcodeTable → r.selects ctl = true →
      r'.selects ctl = true → r = r') ∧
    opcodeTable.length = 15

/-- A control word is rejected exactly where its reserved bits are not 000 or its operation is 0 or 7 to 15
(30_encoding.md R77, R79). -/
def Obligations.RejectedControlWordsAreTheUnassignedOnes : Prop :=
  ∀ c : Command, (∃ e, decode c = .error e) ↔ (ctlRsv c.ctl ≠ 0 ∨ ctlOpc c.ctl = 0 ∨ 7 ≤ ctlOpc c.ctl)

/-- The ignored fields (30_encoding.md R78): the single-bit commands ignore `CTL[12:4]` and have width 1, their canonical encodings,
VALUE_IN ignored by all but INS, and no command ignoring START_BYTE, START_BIT or SRC_LEN. -/
def Obligations.IgnoredFieldsDoNotMatter : Prop :=
  (∀ c c' : Command, ctlRsv c.ctl = ctlRsv c'.ctl → ctlOpc c.ctl = ctlOpc c'.ctl →
      1 ≤ ctlOpc c.ctl → ctlOpc c.ctl ≤ 3 → c.place = c'.place →
      decode c = decode c' ∧ ∀ i, decode c = .ok i → i.width = 1) ∧
    (∀ p : Place, (encode (.test p)).ctl = 0x0041 ∧ (encode (.setb p)).ctl = 0x0042 ∧ (encode (.clrb p)).ctl = 0x0043) ∧
    (∀ (c : Command) (v : Bus), ctlOpc c.ctl ≠ 6 → decode { c with valueIn := v } = decode c) ∧
    (∀ (c : Command) (i : Instr), decode c = .ok i → i.place = c.place)

/-- The wire form of STATUS (60_exceptions.md R200; the numbers are the spec's decision D6): OK is 0, codes 6 and 7 are never
produced and no two statuses share a code. -/
def Obligations.StatusCodesAreTheTable : Prop :=
  (Status.code .ok = 0 ∧ Status.code .startOffsetTooBig = 1 ∧ Status.code .numberOfBitsTooBigForOutputType = 2 ∧
      Status.code .outOfRange = 3 ∧ Status.code .zeroWidth = 4 ∧ Status.code .illegalCommand = 5) ∧
    (∀ a : Status, a.code ≠ 6 ∧ a.code ≠ 7) ∧ ∀ a b : Status, a.code = b.code → a = b

/-! ## The step -/

/-- Where the record the host presents next decodes to a command, the step is that command on the state with the record taken
(10_state.md R25, R28, 30_encoding.md R77). -/
def Obligations.StepRunsTheDecodedCommand : Prop :=
  ∀ (s : State) (c : Command) (rest : List Command) (i : Instr), s.hostCommands = c :: rest →
    c.fits s.config.aw = true → decode c = .ok i → step s = exec i { s with hostCommands := rest }

/-- A control word that no row of the table selects is answered IllegalCommand whatever the other fields hold, with no access and
no other effect (60_exceptions.md R208). -/
def Obligations.UnassignedControlWordAnswersIllegalCommand : Prop :=
  ∀ (s : State) (c : Command) (rest : List Command), s.hostCommands = c :: rest → c.fits s.config.aw = true →
    (∀ r ∈ opcodeTable, r.selects c.ctl = false) →
    step s = .next { s with hostCommands := rest, response := some ⟨.illegalCommand, 0⟩, accesses := [] }

/-- No step where the host presents no command (log 3), nor for a record with an operand beyond AW bits (log 8). -/
def Obligations.NoStepWithoutAPresentableCommand : Prop :=
  (∀ s : State, s.hostCommands = [] → step s = .refused .noCommand) ∧
    (∀ (s : State) (c : Command) (rest : List Command), s.hostCommands = c :: rest → c.fits s.config.aw = false →
      step s = .refused .operandTooWide)

/-- After reset no response exists, no command has been presented and no access issued (10_state.md R30); that no storage is bound
is the model's choice (log 4). -/
def Obligations.ResetLeavesNoResponse : Prop :=
  State.reset.response = none ∧ State.reset.hostCommands = [] ∧ State.reset.accesses = [] ∧ State.reset.mem = []

/-- The invariant holds at reset. -/
def Obligations.InvariantHoldsAtReset : Prop := State.reset.inv = true

/-- Every step keeps the invariant: memory in canonical form, a failed response empty and its command without accesses, every access
inside the storage, at most 9 reads and 9 writes. -/
def Obligations.EveryStepKeepsTheInvariant : Prop :=
  ∀ s t : State, s.inv = true → step s = .next t → t.inv = true

/-- No step changes the parameters, the borrow or the bytes the storage has; each step takes one command and leaves a response
(10_state.md R23, R26, 20_memory.md R42, 70_reset_and_hazards.md R231). -/
def Obligations.EveryStepKeepsParametersAndStorage : Prop :=
  ∀ s t : State, step s = .next t →
    t.config = s.config ∧ t.borrow = s.borrow ∧ t.mem.map Prod.fst = s.mem.map Prod.fst ∧ t.mem.size = s.mem.size ∧
      t.hostCommands = s.hostCommands.tail ∧ s.hostCommands ≠ [] ∧ t.response ≠ none

/-! ## Failures -/

/-- The status of a granted command is that of the first failing check: ZeroWidth (under Reject), StartOffsetTooBig,
NumberOfBitsTooBigForOutputType, OutOfRange (40_addressor.md R107). -/
def Obligations.StatusFollowsThePriorityOrder : Prop :=
  ∀ (i : Instr) (s : State), s.grants i = true →
    ∃ t, exec i s = .next t ∧ t.status = some
      (if s.config.zeroWidthPolicy = .reject ∧ i.width = 0 then .zeroWidth
       else if i.place.total ≤ i.place.abs then .startOffsetTooBig
       else if i.capacity < i.width then .numberOfBitsTooBigForOutputType
       else if i.place.total < i.place.abs + i.width then .outOfRange
       else .ok)

/-- `raise`: a command that fails responds its status with VALUE_OUT = 0, issues no access and leaves everything else as it was
(60_exceptions.md R203; VALUE_OUT = 0 is the spec's decision D12); so does a step, which has only taken the record. -/
def Obligations.FailureChangesOnlyTheResponse : Prop :=
  (∀ (i : Instr) (s t : State), exec i s = .next t → t.status ≠ some .ok →
    ∃ status, t = { s with response := some ⟨status, 0⟩, accesses := [] }) ∧
  ∀ s t : State, step s = .next t → t.status ≠ some .ok →
    ∃ status, t = { s with hostCommands := s.hostCommands.tail, response := some ⟨status, 0⟩, accesses := [] }

/-- Which statuses a command can end with (60_exceptions.md R209): IllegalCommand never; a single-bit command only OK or
StartOffsetTooBig; ZeroWidth only for width 0 under Reject. -/
def Obligations.EachCommandHasItsStatuses : Prop :=
  ∀ (i : Instr) (s t : State), exec i s = .next t →
    t.status ≠ some .illegalCommand ∧
      ((∃ p, i = .test p ∨ i = .setb p ∨ i = .clrb p) → t.status = some .ok ∨ t.status = some .startOffsetTooBig) ∧
      (t.status = some .zeroWidth → i.width = 0 ∧ s.config.zeroWidthPolicy = .reject) ∧
      (t.status = some .startOffsetTooBig → i.place.total ≤ i.place.abs) ∧
      (t.status = some .numberOfBitsTooBigForOutputType → i.capacity < i.width) ∧
      (t.status = some .outOfRange → i.place.abs < i.place.total ∧ i.place.total < i.place.abs + i.width)

/-- Against an empty source every command fails and touches nothing: IllegalCommand for an unassigned control word, else ZeroWidth
under Reject with width 0, else StartOffsetTooBig (40_addressor.md R111). -/
def Obligations.EmptySourceFailsEveryCommand : Prop :=
  ∀ (s : State) (c : Command) (rest : List Command), s.hostCommands = c :: rest → c.fits s.config.aw = true →
    c.srcLen = 0 →
    (∀ e, decode c = .error e →
      step s = .next { s with hostCommands := rest, response := some ⟨.illegalCommand, 0⟩, accesses := [] }) ∧
    (∀ i, decode c = .ok i → (i.writes = true → s.borrow = .mutably) →
      step s = .next { s with
        hostCommands := rest
        response := some ⟨if s.config.zeroWidthPolicy = .reject ∧ i.width = 0 then .zeroWidth else .startOffsetTooBig, 0⟩
        accesses := [] })

/-- The laws of the Addressor (40_addressor.md R112): for width at least 1 a request is accepted exactly where the start is valid,
the width fits the capacity and the end is inside, and it answers `abs`; the outcome depends on the start only through `abs`; a
request accepted for a source is accepted for every longer one. -/
def Obligations.AddressorAcceptsExactlyTheFieldsInside : Prop :=
  (∀ (policy : ZeroWidthPolicy) (p : Place) (width cap a : Nat), 1 ≤ width →
    (validate policy p width cap = .ok a ↔
      a = p.abs ∧ p.abs < p.total ∧ width ≤ cap ∧ p.abs + width ≤ p.total)) ∧
  (∀ (policy : ZeroWidthPolicy) (p q : Place) (width cap : Nat), p.srcLen = q.srcLen → p.abs = q.abs →
    validate policy p width cap = validate policy q width cap) ∧
  (∀ (policy : ZeroWidthPolicy) (p : Place) (width cap n a : Nat), p.srcLen ≤ n →
    validate policy p width cap = .ok a → validate policy { p with srcLen := n } width cap = .ok a)

/-- START_BIT is not limited to 0..7: it enters only through `8 × START_BYTE + START_BIT`, and a start bit beyond 7 names the bit of
a later byte, identically in every command (40_addressor.md R102). -/
def Obligations.StartBitBeyondSevenNamesALaterByte : Prop :=
  ∀ (i : Instr) (s : State) (n byte bit : Nat),
    (∀ q : Place, q.srcLen = n → q.abs = 8 * byte + bit → exec (withPlace q i) s = exec (withPlace ⟨n, byte, bit⟩ i) s) ∧
    (⟨n, byte, bit⟩ : Place).abs = (⟨n, byte + bit / 8, bit % 8⟩ : Place).abs ∧
    exec (withPlace ⟨n, byte, bit⟩ i) s = exec (withPlace ⟨n, byte + bit / 8, bit % 8⟩ i) s

/-- A command the host has not granted has no meaning and is refused by name: a SRC_LEN beyond the storage (20_memory.md R42,
log 5), a write command on storage lent immutably (70_reset_and_hazards.md R231, log 7). -/
def Obligations.UngrantedCommandIsRefused : Prop :=
  (∀ (i : Instr) (s : State), s.mem.size < i.place.srcLen → exec i s = .refused .srcLenBeyondStorage) ∧
    (∀ (i : Instr) (s : State), i.place.srcLen ≤ s.mem.size → i.writes = true → s.borrow = .immutably →
      exec i s = .refused .notLentMutably)

/-- No command faults: the transfer itself cannot fail (60_exceptions.md R202), and no byte that does not exist is touched
(20_memory.md R43). -/
def Obligations.NoCommandFaults : Prop :=
  (∀ (i : Instr) (s : State) (f : Fault), exec i s ≠ .fault f) ∧ ∀ (s : State) (f : Fault), step s ≠ .fault f

/-- A request of width 0 under both policies (40_addressor.md R108). -/
def Obligations.ZeroWidthFollowsThePolicy : Prop :=
  (∀ (i : Instr) (s : State), s.grants i = true → i.width = 0 →
    (s.config.zeroWidthPolicy = .reject →
      exec i s = .next { s with response := some ⟨.zeroWidth, 0⟩, accesses := [] }) ∧
    (s.config.zeroWidthPolicy = .noOp → i.place.total ≤ i.place.abs →
      exec i s = .next { s with response := some ⟨.startOffsetTooBig, 0⟩, accesses := [] }) ∧
    (s.config.zeroWidthPolicy = .noOp → i.place.abs < i.place.total →
      exec i s = .next { s with response := some ⟨.ok, 0⟩, accesses := [] })) ∧
  (∀ p : Place, (Instr.test p).width = 1 ∧ (Instr.setb p).width = 1 ∧ (Instr.clrb p).width = 1)

/-! ## The span and the accesses -/

/-- The span of a field of width 1 to 64 holds `((abs mod 8) + w + 7) div 8` bytes, at least 1 and at most 9 (20_memory.md R49). -/
def Obligations.SpanHoldsOneToNineBytes : Prop :=
  ∀ abs width : Nat, 1 ≤ width → width ≤ 64 →
    spanLen abs width = (abs + width - 1) / 8 - abs / 8 + 1 ∧ spanLen abs width = (abs % 8 + width + 7) / 8 ∧
      1 ≤ spanLen abs width ∧ spanLen abs width ≤ 9

/-- The span and its parts (40_addressor.md R106): the bytes from `abs div 8` to `(abs + width - 1) div 8`; in each, the field's bits
are those from `lo` to `hi`, 1 to 8 of them, whole bytes inside, partial ones at the ends; their counts add up to the width; no
byte for width 0. -/
def Obligations.SpanPartsMakeUpTheField : Prop :=
  (∀ abs width : Nat, 1 ≤ width →
    (∀ i, i ∈ span abs width ↔ abs / 8 ≤ i ∧ i ≤ (abs + width - 1) / 8) ∧
    (∀ i q, q < 8 → ((abs ≤ 8 * i + q ∧ 8 * i + q < abs + width) ↔
      i ∈ span abs width ∧ fieldLo abs i ≤ q ∧ q ≤ fieldHi abs width i)) ∧
    (∀ i ∈ span abs width,
      fieldBits abs width i = fieldHi abs width i - fieldLo abs i + 1 ∧ 1 ≤ fieldBits abs width i ∧
        fieldBits abs width i ≤ 8 ∧
        (i = abs / 8 → fieldLo abs i = abs % 8) ∧ (abs / 8 < i → fieldLo abs i = 0) ∧
        (i = (abs + width - 1) / 8 → fieldHi abs width i = (abs + width - 1) % 8) ∧
        (i < (abs + width - 1) / 8 → fieldHi abs width i = 7)) ∧
    ((span abs width).map (fieldBits abs width)).sum = width) ∧
  ∀ abs : Nat, span abs 0 = []

/-- The accesses of a command (20_memory.md R50): a read command that ends OK reads each byte of its span once, ascending, and
writes none; a write command reads then writes each; a command that fails issues none. -/
def Obligations.AccessesWalkTheSpanInOrder : Prop :=
  ∀ (i : Instr) (s t : State), exec i s = .next t →
    (t.status = some .ok → i.writes = false →
      t.accesses = (List.range' (i.place.abs / 8) (spanLen i.place.abs i.width)).map .read) ∧
    (t.status = some .ok → i.writes = true →
      t.accesses = (List.range' (i.place.abs / 8) (spanLen i.place.abs i.width)).flatMap fun j => [.read j, .write j]) ∧
    (t.status ≠ some .ok → t.accesses = [])

/-- No out-of-range memory touch (20_memory.md R43, R44) and the bound on a command's work (70_reset_and_hazards.md R234): every
access of a command is at an index below its SRC_LEN, at most 9 reads, at most 9 writes, and no write by a read command. -/
def Obligations.CommandsTouchOnlyTheSource : Prop :=
  ∀ (i : Instr) (s t : State), exec i s = .next t →
    (∀ a ∈ t.accesses, accessIndex a < i.place.srcLen) ∧
      t.accesses.countP (fun a => !isWrite a) ≤ 9 ∧ t.accesses.countP isWrite ≤ 9 ∧
      (i.writes = false → t.accesses.countP isWrite = 0)

/-! ## The read commands -/

/-- The byte walk of 41_extract.md R121 computes the field value of R120, for every field inside the source; the spec
derives it (R122). Width 0 reads nothing and gives 0. -/
def Obligations.ByteWalkComputesTheFieldValue : Prop :=
  ∀ (s : State) (abs width : Nat), abs + width ≤ 8 * s.mem.size →
    ∃ u, (s.extractField abs width).map Prod.fst = some u ∧ s.mem.fieldValue abs width = some u ∧ u < 2 ^ width ∧
      ∀ j < width, s.mem.bit (abs + j) = some (u.testBit (width - 1 - j))

/-- TEST on a valid position responds the bit there, having read its one byte (41_extract.md R125; the form of the
boolean is the spec's decision D22; the record of accesses is the model's, log 11). -/
def Obligations.TestReturnsTheBit : Prop :=
  ∀ (p : Place) (s : State), p.srcLen ≤ s.mem.size → p.abs < p.total →
    ∃ b, s.mem.bit p.abs = some b ∧
      exec (.test p) s =
        .next { s with response := some ⟨.ok, if b then 1 else 0⟩, accesses := [.read (p.abs / 8)] }

/-- `EXTU.c` of a valid field responds its value, zero-extended to the bus. -/
def Sys2Proof.Claims.ExtuReturnsField (command : Place → Nat → Instr) (cap : Nat) : Prop :=
  ∀ (p : Place) (width : Nat) (s : State), p.srcLen ≤ s.mem.size →
    (s.config.zeroWidthPolicy = .reject → 1 ≤ width) → p.abs < p.total → width ≤ cap → p.abs + width ≤ p.total →
    ∃ u, s.mem.fieldValue p.abs width = some u ∧ u < 2 ^ width ∧
      (∀ k, cap ≤ k → (BitVec.ofNat 64 u).getLsbD k = false) ∧
      exec (command p width) s =
        .next { s with response := some ⟨.ok, BitVec.ofNat 64 u⟩, accesses := readAccesses p.abs width }

/-- EXTU.8, EXTU.16, EXTU.32 and EXTU.64 respond the field value (41_extract.md R120, R123, R126 to R129; the order of the reads is
the spec's decision D14, their record the model's, log 11). -/
def Obligations.ExtuReturnsTheFieldValue : Prop :=
  Sys2Proof.Claims.ExtuReturnsField .extu8 8 ∧ Sys2Proof.Claims.ExtuReturnsField .extu16 16 ∧
    Sys2Proof.Claims.ExtuReturnsField .extu32 32 ∧ Sys2Proof.Claims.ExtuReturnsField .extu64 64

/-- `EXTS.c` of a valid field responds the field's bits, its top bit copied up to the capacity, zeros above (for width 0, whose
value is 0, all zeros). -/
def Sys2Proof.Claims.ExtsReturnsField (command : Place → Nat → Instr) (cap : Nat) : Prop :=
  ∀ (p : Place) (width : Nat) (s : State), p.srcLen ≤ s.mem.size →
    (s.config.zeroWidthPolicy = .reject → 1 ≤ width) → p.abs < p.total → width ≤ cap → p.abs + width ≤ p.total →
    ∃ (u : Nat) (r : Bus), s.mem.fieldValue p.abs width = some u ∧
      (∀ k, r.getLsbD k = if k < width then u.testBit k else decide (k < cap) && u.testBit (width - 1)) ∧
      exec (command p width) s =
        .next { s with response := some ⟨.ok, r⟩, accesses := readAccesses p.abs width }

/-- EXTS.8, EXTS.16, EXTS.32 and EXTS.64 respond the sign-extended field (41_extract.md R124, R130 to R133; the zeros
above the capacity are the spec's decision D11, the order of the reads D14, their record the model's, log 11). -/
def Obligations.ExtsReturnsTheSignExtendedField : Prop :=
  Sys2Proof.Claims.ExtsReturnsField .exts8 8 ∧ Sys2Proof.Claims.ExtsReturnsField .exts16 16 ∧
    Sys2Proof.Claims.ExtsReturnsField .exts32 32 ∧ Sys2Proof.Claims.ExtsReturnsField .exts64 64

/-- A signed result read as a two's-complement number of the capacity: `u` below `2^(width-1)`, else `u - 2^width`
(41_extract.md R124; the numeric reading is general knowledge, G1, log 18). -/
def Obligations.SignedResultReadsAsANumber : Prop :=
  ∀ (c : Capacity) (p : Place) (width u : Nat) (s : State), p.srcLen ≤ s.mem.size → 1 ≤ width → width ≤ capacityBits c →
    p.abs + width ≤ p.total → s.mem.fieldValue p.abs width = some u →
    ∃ t r, exec (extsOf c p width) s = .next t ∧ t.response = some r ∧
      (r.valueOut.setWidth (capacityBits c)).toInt = if u < 2 ^ (width - 1) then (u : Int) else (u : Int) - 2 ^ width

/-- Signed extraction of a one-bit field (41_extract.md R135): a set bit gives all ones in the low `cap` bits, a clear bit 0, and
the unsigned accessors and TEST give 1 and 0. The zeros above the capacity are R124's (the spec's decision D11), the form of TEST's
boolean R125's (D22), the record of accesses the model's (log 11). -/
def Obligations.SignedOneBitFieldIsMinusOneOrZero : Prop :=
  ∀ (c : Capacity) (p : Place) (s : State) (b : Bool), p.srcLen ≤ s.mem.size → p.abs < p.total →
    s.mem.bit p.abs = some b →
    exec (extsOf c p 1) s =
      .next { s with
        response := some ⟨.ok, if b then BitVec.ofNat 64 (2 ^ capacityBits c - 1) else 0⟩
        accesses := [.read (p.abs / 8)] } ∧
    exec (extuOf c p 1) s =
      .next { s with response := some ⟨.ok, if b then 1 else 0⟩, accesses := [.read (p.abs / 8)] } ∧
    exec (.test p) s =
      .next { s with response := some ⟨.ok, if b then 1 else 0⟩, accesses := [.read (p.abs / 8)] }

/-- For one field the unsigned and signed results agree in their low `width` bits, and entirely where the field's first bit is 0
or `width = c`; a wider capacity gives the same unsigned result (41_extract.md R134 (c), (d)). -/
def Obligations.UnsignedAndSignedReadsAgree : Prop :=
  ∀ (c c' : Capacity) (p : Place) (width : Nat) (s : State), p.srcLen ≤ s.mem.size → 1 ≤ width →
    width ≤ capacityBits c → width ≤ capacityBits c' → p.abs + width ≤ p.total →
    ∃ t t' t'' ru rs, exec (extuOf c p width) s = .next t ∧ exec (extsOf c p width) s = .next t' ∧
      exec (extuOf c' p width) s = .next t'' ∧
      t.response = some ⟨.ok, ru⟩ ∧ t'.response = some ⟨.ok, rs⟩ ∧ t''.response = some ⟨.ok, ru⟩ ∧
      (∀ k < width, ru.getLsbD k = rs.getLsbD k) ∧
      (s.mem.bit p.abs = some false ∨ width = capacityBits c → ru = rs)

/-- The response of a read command depends on no bit outside its field (41_extract.md R134 (b)). -/
def Obligations.ReadResultDependsOnlyOnTheFieldBits : Prop :=
  ∀ (i : Instr) (s s' t t' : State), i.writes = false → s.config = s'.config →
    (∀ k, i.place.abs ≤ k → k < i.place.abs + i.width → s.mem.bit k = s'.mem.bit k) →
    exec i s = .next t → exec i s' = .next t' → t.response = t'.response ∧ t.accesses = t'.accesses

/-- A read command changes nothing but the response and the record of its accesses, whatever its status: every byte of memory, the
parameters, the borrow and the commands to come are as they were (10_state.md R29, 41_extract.md R134 (a)). -/
def Obligations.ReadCommandsChangeOnlyTheResponse : Prop :=
  ∀ (i : Instr) (s t : State), i.writes = false → exec i s = .next t →
    t.mem = s.mem ∧ (∀ a, t.mem.read a = s.mem.read a) ∧ t.config = s.config ∧ t.borrow = s.borrow ∧
      t.hostCommands = s.hostCommands

/-! ## The write commands -/

/-- SETB on a valid position: its byte with that bit forced to 1, and nothing else (42_inject.md R154; VALUE_OUT = 0 is the spec's
decision D12, log 10; the record of accesses the model's, log 11). -/
def Obligations.SetbForcesTheBitToOne : Prop :=
  ∀ (p : Place) (s : State), p.srcLen ≤ s.mem.size → s.borrow = .mutably → p.abs < p.total →
    ∃ b, s.mem.read (p.abs / 8) = some b ∧
      exec (.setb p) s =
        .next { s with
          mem := s.mem.set (p.abs / 8) (b ||| (0x80#8 >>> (p.abs % 8)))
          response := some ⟨.ok, 0⟩
          accesses := [.read (p.abs / 8), .write (p.abs / 8)] }

/-- CLRB on a valid position: its byte with that bit forced to 0, and nothing else (42_inject.md R155; VALUE_OUT = 0 is the spec's
decision D12, log 10; the record of accesses the model's, log 11). -/
def Obligations.ClrbForcesTheBitToZero : Prop :=
  ∀ (p : Place) (s : State), p.srcLen ≤ s.mem.size → s.borrow = .mutably → p.abs < p.total →
    ∃ b, s.mem.read (p.abs / 8) = some b ∧
      exec (.clrb p) s =
        .next { s with
          mem := s.mem.set (p.abs / 8) (b &&& ~~~(0x80#8 >>> (p.abs % 8)))
          response := some ⟨.ok, 0⟩
          accesses := [.read (p.abs / 8), .write (p.abs / 8)] }

/-- `INS.c` into a valid field: the field's bits become the value's low `width` bits, first bit most significant, and every other
bit and byte is as it was (all of them for width 0). -/
def Sys2Proof.Claims.InsWritesField (command : Place → Nat → Bus → Instr) (cap : Nat) : Prop :=
  ∀ (p : Place) (width : Nat) (v : Bus) (s : State), p.srcLen ≤ s.mem.size → s.borrow = .mutably →
    (s.config.zeroWidthPolicy = .reject → 1 ≤ width) → p.abs < p.total → width ≤ cap → p.abs + width ≤ p.total →
    ∃ m, exec (command p width v) s =
        .next { s with mem := m, response := some ⟨.ok, 0⟩, accesses := writeAccesses p.abs width } ∧
      (∀ j < width, m.bit (p.abs + j) = some (v.getLsbD (width - 1 - j))) ∧
      (∀ k, k < p.abs ∨ p.abs + width ≤ k → m.bit k = s.mem.bit k) ∧
      (∀ a, a < firstByte p.abs ∨ lastByte p.abs width < a → m.read a = s.mem.read a) ∧
      m.map Prod.fst = s.mem.map Prod.fst

/-- INS.8, INS.16, INS.32 and INS.64 write the field (42_inject.md R150, R156 to R159). That the CORE truncates VALUE_IN is
R152's (the spec's decision D10), the response (OK, 0) R161's (D12, log 10), the order of the accesses R50's (D14) and their record the
model's (log 11). -/
def Obligations.InsWritesTheField : Prop :=
  Sys2Proof.Claims.InsWritesField .ins8 8 ∧ Sys2Proof.Claims.InsWritesField .ins16 16 ∧
    Sys2Proof.Claims.InsWritesField .ins32 32 ∧ Sys2Proof.Claims.InsWritesField .ins64 64

/-- What a command leaves of the source memory (10_state.md R29): a read command and a failing command leave it as it was; a write
command that succeeds changes only the bits of its field, and no byte outside its span. -/
def Obligations.CommandsChangeOnlyTheFieldOfTheSource : Prop :=
  ∀ (i : Instr) (s t : State), exec i s = .next t →
    (i.writes = false → t.mem = s.mem) ∧ (t.status ≠ some .ok → t.mem = s.mem) ∧
      (∀ k, k < i.place.abs ∨ i.place.abs + i.width ≤ k → t.mem.bit k = s.mem.bit k) ∧
      (∀ a, a < firstByte i.place.abs ∨ lastByte i.place.abs i.width < a → t.mem.read a = s.mem.read a)

/-- The frame of the write commands SETB, CLRB, INS.8, INS.16, INS.32 and INS.64: the parameters, the borrow, the commands to come
and the listed indices are as they were, every byte outside the span reads as before, and the response carries VALUE_OUT = 0
(42_inject.md R153, R161). -/
def Obligations.WriteCommandsKeepEverythingElse : Prop :=
  ∀ (i : Instr) (s t : State), i.writes = true → exec i s = .next t →
    t.config = s.config ∧ t.borrow = s.borrow ∧ t.hostCommands = s.hostCommands ∧
      t.mem.map Prod.fst = s.mem.map Prod.fst ∧
      (∀ a, a < firstByte i.place.abs ∨ lastByte i.place.abs i.width < a → t.mem.read a = s.mem.read a) ∧
      ∃ status, t.response = some ⟨status, 0⟩

/-- Only the low `width` bits of VALUE_IN reach an INS command (42_inject.md R152). -/
def Obligations.InsIgnoresTheBitsAboveTheWidth : Prop :=
  ∀ (c : Capacity) (p : Place) (width : Nat) (v v' : Bus) (s : State),
    (∀ k < width, v.getLsbD k = v'.getLsbD k) → exec (insOf c p width v) s = exec (insOf c p width v') s

/-- The round trip, which the spec derives (42_inject.md R160), for every width from 1 on (ZeroWidthFollowsThePolicy is about
width 0): after an INS that ends OK, EXTU and EXTS at the same place and width return the value written, unsigned and signed; a value
that fits comes back itself (for a signed number by the standard two's-complement reading, general knowledge in the spec, G1, log 18);
after SETB, TEST returns 1; after CLRB, 0. -/
def Obligations.WriteThenReadReturnsTheValue : Prop :=
  (∀ (c₁ c₂ : Capacity) (p : Place) (width : Nat) (v : Bus) (s t : State), 1 ≤ width → width ≤ capacityBits c₂ →
    exec (insOf c₁ p width v) s = .next t → t.status = some .ok →
    (∃ t', exec (extuOf c₂ p width) t = .next t' ∧
      t'.response = some ⟨.ok, BitVec.ofNat 64 (v.toNat % 2 ^ width)⟩) ∧
    (∃ t' r, exec (extsOf c₂ p width) t = .next t' ∧ t'.response = some ⟨.ok, r⟩ ∧
      (∀ k, r.getLsbD k =
        if k < width then v.getLsbD k else decide (k < capacityBits c₂) && v.getLsbD (width - 1)) ∧
      ∀ x : Int, -(2 ^ (width - 1)) ≤ x → x < 2 ^ (width - 1) → v = BitVec.ofInt 64 x →
        r = (BitVec.ofInt (capacityBits c₂) x).setWidth 64)) ∧
  (∀ (p : Place) (s t : State), exec (.setb p) s = .next t → t.status = some .ok →
    ∃ t', exec (.test p) t = .next t' ∧ t'.response = some ⟨.ok, 1⟩) ∧
  (∀ (p : Place) (s t : State), exec (.clrb p) s = .next t → t.status = some .ok →
    ∃ t', exec (.test p) t = .next t' ∧ t'.response = some ⟨.ok, 0⟩)

/-- The single-bit commands are the width-1 commands: TEST is any EXTU, SETB any INS of 1 and CLRB any INS of 0, in every state
(30_encoding.md R78, 41_extract.md R125). -/
def Obligations.SingleBitCommandsAreWidthOneFields : Prop :=
  ∀ (c : Capacity) (p : Place) (s : State),
    exec (.test p) s = exec (extuOf c p 1) s ∧ exec (.setb p) s = exec (insOf c p 1 1) s ∧
      exec (.clrb p) s = exec (insOf c p 1 0) s

/-! ## No state between commands -/

/-- A command's effect depends on no earlier command: not on the last response, nor on the record of its accesses, nor on the
commands to come (10_state.md R22, R24). -/
def Obligations.EffectIndependentOfEarlierCommands : Prop :=
  ∀ (i : Instr) (s s' t : State), s.config = s'.config → s.borrow = s'.borrow → s.mem = s'.mem → exec i s = .next t →
    exec i s' = .next { s' with mem := t.mem, response := t.response, accesses := t.accesses }

/-- The same command against the same source fails the same way every time (60_exceptions.md R215). -/
def Obligations.FailingCommandFailsTheSameWayAgain : Prop :=
  ∀ (i : Instr) (s t : State), exec i s = .next t → t.status ≠ some .ok → exec i t = .next t

/-! ## BITLAB's operations -/

/-- A single integer as a source is big-endian (20_memory.md R46): `n` bytes, byte `i` the bits `8(n-i)-1` to `8(n-i-1)`, and
position `k` the integer's bit `8n-1-k` (log 19). -/
def Obligations.SingleIntegerIsBigEndian : Prop :=
  ∀ n v : Nat,
    (presentInteger n v).size = n ∧
      (∀ i < n, (presentInteger n v).read i = some (BitVec.ofNat 8 (v >>> (8 * (n - i - 1))))) ∧
      (∀ k < 8 * n, (presentInteger n v).bit k = some (v.testBit (8 * n - 1 - k)))

/-- A presented integer re-assembled is the integer (43_host_operations.md R189; log 19). -/
def Obligations.PresentedIntegerReadsBack : Prop :=
  ∀ n v : Nat, (presentInteger n v).integer n = some (v % 2 ^ (8 * n))

/-- A width above 127 issued as 127 ends the same way (43_host_operations.md R191). -/
def Obligations.OverwideHostWidthFailsTheSameWay : Prop :=
  ∀ (c : Capacity) (p : Place) (width : Nat) (v : Bus) (s : State), 127 < width →
    exec (extuOf c p (issuedWidth width)) s = exec (extuOf c p width) s ∧
      exec (extsOf c p (issuedWidth width)) s = exec (extsOf c p width) s ∧
      exec (insOf c p (issuedWidth width) v) s = exec (insOf c p width v) s

/-- What an operation leaves of the host's side: the storage, how it is lent, the parameters and the commands to come. -/
def Sys2Proof.Claims.KeepsHostSide (s t : State) : Prop :=
  t.mem = s.mem ∧ t.borrow = s.borrow ∧ t.config = s.config ∧ t.hostCommands = s.hostCommands

/-- `get_bit` in both shapes returns the boolean at its position, VALUE_OUT[0], and leaves the storage as it was
(43_host_operations.md R182; log 19). -/
def Obligations.GetBitReturnsTheBoolean : Prop :=
  ∀ (sh : Shape) (v : Nat) (s : State), (shapePlace sh).srcLen ≤ (s.bound sh v).mem.size →
    (shapePlace sh).abs < (shapePlace sh).total →
    ∃ b t, (s.bound sh v).mem.bit (shapePlace sh).abs = some b ∧
      runHostOp (.getBit sh) v s = some (.boolean b, t) ∧ Sys2Proof.Claims.KeepsHostSide s t

/-- `get_u{c}` and `get_i{c}` in both shapes return the low `c` bits of VALUE_OUT: the field value, and the field's bits with its top
bit copied up to bit `c - 1`; the storage is left as it was (43_host_operations.md R185, R186; log 19). -/
def Obligations.GetIntegersReturnTheField : Prop :=
  ∀ (c : Capacity) (sh : Shape) (width v : Nat) (s : State), (shapePlace sh).srcLen ≤ (s.bound sh v).mem.size →
    (s.config.zeroWidthPolicy = .reject → 1 ≤ width) → (shapePlace sh).abs < (shapePlace sh).total →
    width ≤ capacityBits c → (shapePlace sh).abs + width ≤ (shapePlace sh).total →
    ∃ u r t t', (s.bound sh v).mem.fieldValue (shapePlace sh).abs width = some u ∧
      runHostOp (.getU c sh width) v s = some (.pattern c u, t) ∧ Sys2Proof.Claims.KeepsHostSide s t ∧
      runHostOp (.getI c sh width) v s = some (.pattern c r, t') ∧ Sys2Proof.Claims.KeepsHostSide s t' ∧
      r < 2 ^ capacityBits c ∧
      ∀ k < capacityBits c, r.testBit k = if k < width then u.testBit k else u.testBit (width - 1)

/-- The get operations on a single integer, in terms of the integer: bit `off` from its most significant bit, and the `width` bits
from there (20_memory.md R46, 43_host_operations.md R182, R185; log 19). -/
def Obligations.GetOnSingleIntegerReadsItsBits : Prop :=
  (∀ (size : IntSize) (off v : Nat) (s : State), off < 8 * intBytes size →
    ∃ t, runHostOp (.getBit (.single size off)) v s = some (.boolean (v.testBit (8 * intBytes size - 1 - off)), t)) ∧
  ∀ (c : Capacity) (size : IntSize) (off width v : Nat) (s : State), 1 ≤ width → width ≤ capacityBits c →
    off + width ≤ 8 * intBytes size →
    ∃ t, runHostOp (.getU c (.single size off) width) v s =
      some (.pattern c (v / 2 ^ (8 * intBytes size - off - width) % 2 ^ width), t)

/-- `set_u{c}` on a single integer (43_host_operations.md R187, R189; log 19): for a field inside the integer it returns the integer
with the value's bits in the field and every other bit kept, and the original is left as it was; for an offset past its end it returns
the failure and no value. -/
def Obligations.SetOnSingleIntegerReturnsTheNewInteger : Prop :=
  ∀ (c : Capacity) (size : IntSize) (off width : Nat) (value : Bus) (v : Nat) (s : State), 1 ≤ width →
    (width ≤ capacityBits c → off + width ≤ 8 * intBytes size →
      ∃ v' t, runHostOp (.setU c size off width value) v s = some (.integer v', t) ∧
        Sys2Proof.Claims.KeepsHostSide s t ∧ v' < 2 ^ (8 * intBytes size) ∧
        ∀ k < 8 * intBytes size, v'.testBit (8 * intBytes size - 1 - k) =
          if off ≤ k ∧ k < off + width then value.getLsbD (off + width - 1 - k)
          else v.testBit (8 * intBytes size - 1 - k)) ∧
    (8 * intBytes size ≤ off →
      ∃ t, runHostOp (.setU c size off width value) v s = some (.failure .startOffsetTooBig, t) ∧
        Sys2Proof.Claims.KeepsHostSide s t)

/-- `set_bit` and `clear_bit` on a single integer return the integer with that bit forced and every other kept
(43_host_operations.md R183, R184, R189; log 19). -/
def Obligations.BitOperationsReturnTheNewInteger : Prop :=
  ∀ (size : IntSize) (off v : Nat) (s : State), off < 8 * intBytes size →
    (∃ v' t, runHostOp (.setBit (.single size off)) v s = some (.integer v', t) ∧
      Sys2Proof.Claims.KeepsHostSide s t ∧ v' < 2 ^ (8 * intBytes size) ∧
      ∀ k < 8 * intBytes size, v'.testBit (8 * intBytes size - 1 - k) =
        if k = off then true else v.testBit (8 * intBytes size - 1 - k)) ∧
    ∃ v' t, runHostOp (.clearBit (.single size off)) v s = some (.integer v', t) ∧
      Sys2Proof.Claims.KeepsHostSide s t ∧ v' < 2 ^ (8 * intBytes size) ∧
      ∀ k < 8 * intBytes size, v'.testBit (8 * intBytes size - 1 - k) =
        if k = off then false else v.testBit (8 * intBytes size - 1 - k)

/-- A write operation on a sequence that ends OK changes the host's storage in place, to what its command leaves, and returns nothing
else (43_host_operations.md R189; log 19). -/
def Obligations.SequenceWritesChangeTheStorageInPlace : Prop :=
  ∀ (op : HostOp) (len byte bit v : Nat) (s t : State), hostShape op = .sequence len byte bit →
    (hostCommand op).writes = true → exec (hostCommand op) s = .next t → t.status = some .ok →
    runHostOp op v s = some (.changedInPlace, t)

/-- An operation whose command fails returns the failure and no value, and leaves the storage as it was, in both shapes
(43_host_operations.md R189; log 19). -/
def Obligations.FailedOperationReturnsTheFailureAlone : Prop :=
  ∀ (op : HostOp) (v : Nat) (status : Status) (s t : State),
    exec (hostCommand op) (s.bound (hostShape op) v) = .next t → t.status = some status → status ≠ .ok →
    ∃ t', runHostOp op v s = some (.failure status, t') ∧ Sys2Proof.Claims.KeepsHostSide s t'
end

