-- ==== Sys2Proof/Laws/Decode.lean ====
section
/-! SUPPORT. The fields of an assembled control word, and a decoded control word by its fields. -/

namespace Sys2Proof

/-- An assembled control word as a number: its fields side by side. -/
theorem ctlOf_toNat {opc cap width : Nat} (ho : opc < 16) (hc : cap < 4) (hw : width < 128) :
    (ctlOf opc cap width).toNat = 64 * width + 16 * cap + opc := by
  have h1 : width <<< 6 ||| cap <<< 4 = 64 * width + 16 * cap := by
    rw [← Nat.shiftLeft_add_eq_or_of_lt (by rw [Nat.shiftLeft_eq]; omega), Nat.shiftLeft_eq, Nat.shiftLeft_eq]
    omega
  have h2 : (64 * width + 16 * cap) = (4 * width + cap) <<< 4 := by rw [Nat.shiftLeft_eq]; omega
  rw [ctlOf, BitVec.toNat_ofNat, h1, h2, ← Nat.shiftLeft_add_eq_or_of_lt (by omega), Nat.shiftLeft_eq]
  omega

theorem ctlOpc_eq (ctl : CtlWord) : ctlOpc ctl = ctl.toNat % 16 := by
  simp [ctlOpc, BitVec.extractLsb'_toNat]

theorem ctlCap_eq (ctl : CtlWord) : ctlCap ctl = ctl.toNat / 16 % 4 := by
  simp [ctlCap, BitVec.extractLsb'_toNat, Nat.shiftRight_eq_div_pow]

theorem ctlWidth_eq (ctl : CtlWord) : ctlWidth ctl = ctl.toNat / 64 % 128 := by
  simp [ctlWidth, BitVec.extractLsb'_toNat, Nat.shiftRight_eq_div_pow]

theorem ctlRsv_eq (ctl : CtlWord) : ctlRsv ctl = ctl.toNat / 8192 % 8 := by
  simp [ctlRsv, BitVec.extractLsb'_toNat, Nat.shiftRight_eq_div_pow]

theorem ctlOpc_lt (ctl : CtlWord) : ctlOpc ctl < 16 := (ctl.extractLsb' 0 4).isLt

theorem ctlCap_lt (ctl : CtlWord) : ctlCap ctl < 4 := (ctl.extractLsb' 4 2).isLt

theorem ctlWidth_lt (ctl : CtlWord) : ctlWidth ctl < 128 := (ctl.extractLsb' 6 7).isLt

theorem ctlRsv_lt (ctl : CtlWord) : ctlRsv ctl < 8 := (ctl.extractLsb' 13 3).isLt

/-- The decoder reads back the fields of an assembled control word. -/
theorem fields_ctlOf {opc cap width : Nat} (ho : opc < 16) (hc : cap < 4) (hw : width < 128) :
    ctlOpc (ctlOf opc cap width) = opc ∧ ctlCap (ctlOf opc cap width) = cap ∧ ctlWidth (ctlOf opc cap width) = width ∧
      ctlRsv (ctlOf opc cap width) = 0 := by
  rw [ctlOpc_eq, ctlCap_eq, ctlWidth_eq, ctlRsv_eq, ctlOf_toNat ho hc hw]
  omega

/-! ## The masks of the opcode table -/

/-- The bits the single-bit rows compare: the reserved bits and the operation. -/
theorem singleBitMask_eq (ctl : CtlWord) : (ctl &&& 0xE00F).toNat = 8192 * ctlRsv ctl + ctlOpc ctl := by
  have h : ctl &&& 0xE00F = ctl.extractLsb' 13 3 ++ (0#9 ++ ctl.extractLsb' 0 4) := by
    refine BitVec.eq_of_getLsbD_eq fun i hi => ?_
    simp only [BitVec.getLsbD_and, BitVec.getLsbD_append, BitVec.getLsbD_extractLsb']
    interval_cases i <;> simp
  rw [h]
  have := ctlOpc_lt ctl
  simp only [ctlRsv, ctlOpc, BitVec.toNat_append, BitVec.toNat_ofNat, Nat.zero_mod, Nat.zero_shiftLeft, Nat.zero_or] at *
  rw [← Nat.shiftLeft_add_eq_or_of_lt (by omega), Nat.shiftLeft_eq]
  omega

/-- The bits the other rows compare: the reserved bits, the capacity selector and the operation. -/
theorem fieldMask_eq (ctl : CtlWord) : (ctl &&& 0xE03F).toNat = 8192 * ctlRsv ctl + 16 * ctlCap ctl + ctlOpc ctl := by
  have h : ctl &&& 0xE03F = ctl.extractLsb' 13 3 ++ (0#7 ++ (ctl.extractLsb' 4 2 ++ ctl.extractLsb' 0 4)) := by
    refine BitVec.eq_of_getLsbD_eq fun i hi => ?_
    simp only [BitVec.getLsbD_and, BitVec.getLsbD_append, BitVec.getLsbD_extractLsb']
    interval_cases i <;> simp
  rw [h]
  have := ctlOpc_lt ctl
  have := ctlCap_lt ctl
  simp only [ctlRsv, ctlCap, ctlOpc, BitVec.toNat_append, BitVec.toNat_ofNat, Nat.zero_mod, Nat.zero_shiftLeft,
    Nat.zero_or] at *
  rw [← Nat.shiftLeft_add_eq_or_of_lt (i := 4) (by omega),
    ← Nat.shiftLeft_add_eq_or_of_lt (by rw [Nat.shiftLeft_eq]; omega), Nat.shiftLeft_eq, Nat.shiftLeft_eq]
  omega

end Sys2Proof
end

