-- ==== Sys2Proof/Laws/State.lean ====
section
/-! SUPPORT. What each update of the state does to each field: every lemma is true by `rfl`, so that no proof unfolds a record
update. -/

namespace Sys2Proof.Machine

/-! ## logAccess -/

@[simp] theorem State.logAccess_config (s : State) (a : MemAccess) : (s.logAccess a).config = s.config := rfl
@[simp] theorem State.logAccess_hostCommands (s : State) (a : MemAccess) : (s.logAccess a).hostCommands = s.hostCommands := rfl
@[simp] theorem State.logAccess_borrow (s : State) (a : MemAccess) : (s.logAccess a).borrow = s.borrow := rfl
@[simp] theorem State.logAccess_mem (s : State) (a : MemAccess) : (s.logAccess a).mem = s.mem := rfl
@[simp] theorem State.logAccess_response (s : State) (a : MemAccess) : (s.logAccess a).response = s.response := rfl
@[simp] theorem State.logAccess_accesses (s : State) (a : MemAccess) : (s.logAccess a).accesses = s.accesses ++ [a] := rfl

/-! ## beginTransfer -/

@[simp] theorem State.beginTransfer_config (s : State) : (s.beginTransfer).config = s.config := rfl
@[simp] theorem State.beginTransfer_hostCommands (s : State) : (s.beginTransfer).hostCommands = s.hostCommands := rfl
@[simp] theorem State.beginTransfer_borrow (s : State) : (s.beginTransfer).borrow = s.borrow := rfl
@[simp] theorem State.beginTransfer_mem (s : State) : (s.beginTransfer).mem = s.mem := rfl
@[simp] theorem State.beginTransfer_response (s : State) : (s.beginTransfer).response = s.response := rfl
@[simp] theorem State.beginTransfer_accesses (s : State) : (s.beginTransfer).accesses = [] := rfl

/-! ## withMem -/

@[simp] theorem State.withMem_config (s : State) (m : Memory) : (s.withMem m).config = s.config := rfl
@[simp] theorem State.withMem_hostCommands (s : State) (m : Memory) : (s.withMem m).hostCommands = s.hostCommands := rfl
@[simp] theorem State.withMem_borrow (s : State) (m : Memory) : (s.withMem m).borrow = s.borrow := rfl
@[simp] theorem State.withMem_mem (s : State) (m : Memory) : (s.withMem m).mem = m := rfl
@[simp] theorem State.withMem_response (s : State) (m : Memory) : (s.withMem m).response = s.response := rfl
@[simp] theorem State.withMem_accesses (s : State) (m : Memory) : (s.withMem m).accesses = s.accesses := rfl

/-! ## raise -/

@[simp] theorem State.raise_config (s : State) (status : Status) : (s.raise status).config = s.config := rfl
@[simp] theorem State.raise_hostCommands (s : State) (status : Status) : (s.raise status).hostCommands = s.hostCommands := rfl
@[simp] theorem State.raise_borrow (s : State) (status : Status) : (s.raise status).borrow = s.borrow := rfl
@[simp] theorem State.raise_mem (s : State) (status : Status) : (s.raise status).mem = s.mem := rfl
@[simp] theorem State.raise_response (s : State) (status : Status) : (s.raise status).response = some ⟨status, 0⟩ := rfl
@[simp] theorem State.raise_accesses (s : State) (status : Status) : (s.raise status).accesses = [] := rfl

/-! ## respond -/

@[simp] theorem State.respond_config (s : State) (v : Bus) : (s.respond v).config = s.config := rfl
@[simp] theorem State.respond_hostCommands (s : State) (v : Bus) : (s.respond v).hostCommands = s.hostCommands := rfl
@[simp] theorem State.respond_borrow (s : State) (v : Bus) : (s.respond v).borrow = s.borrow := rfl
@[simp] theorem State.respond_mem (s : State) (v : Bus) : (s.respond v).mem = s.mem := rfl
@[simp] theorem State.respond_response (s : State) (v : Bus) : (s.respond v).response = some ⟨.ok, v⟩ := rfl
@[simp] theorem State.respond_accesses (s : State) (v : Bus) : (s.respond v).accesses = s.accesses := rfl

/-! ## withHostCommands -/

@[simp] theorem State.withHostCommands_config (s : State) (cs : List Command) : (s.withHostCommands cs).config = s.config := rfl
@[simp] theorem State.withHostCommands_hostCommands (s : State) (cs : List Command) : (s.withHostCommands cs).hostCommands = cs := rfl
@[simp] theorem State.withHostCommands_borrow (s : State) (cs : List Command) : (s.withHostCommands cs).borrow = s.borrow := rfl
@[simp] theorem State.withHostCommands_mem (s : State) (cs : List Command) : (s.withHostCommands cs).mem = s.mem := rfl
@[simp] theorem State.withHostCommands_response (s : State) (cs : List Command) : (s.withHostCommands cs).response = s.response := rfl
@[simp] theorem State.withHostCommands_accesses (s : State) (cs : List Command) : (s.withHostCommands cs).accesses = s.accesses := rfl

/-! ## onCopy -/

@[simp] theorem State.onCopy_config (s : State) (n v : Nat) : (s.onCopy n v).config = s.config := rfl
@[simp] theorem State.onCopy_hostCommands (s : State) (n v : Nat) : (s.onCopy n v).hostCommands = s.hostCommands := rfl
@[simp] theorem State.onCopy_borrow (s : State) (n v : Nat) : (s.onCopy n v).borrow = .mutably := rfl
@[simp] theorem State.onCopy_mem (s : State) (n v : Nat) : (s.onCopy n v).mem = presentInteger n v := rfl
@[simp] theorem State.onCopy_response (s : State) (n v : Nat) : (s.onCopy n v).response = s.response := rfl
@[simp] theorem State.onCopy_accesses (s : State) (n v : Nat) : (s.onCopy n v).accesses = s.accesses := rfl

/-! ## bound and unbound: a single integer's copy, or the storage itself -/

@[simp] theorem State.bound_sequence (s : State) (len byte bit v : Nat) : s.bound (.sequence len byte bit) v = s := rfl
@[simp] theorem State.bound_single_mem (s : State) (size : IntSize) (off v : Nat) :
    (s.bound (.single size off) v).mem = presentInteger (intBytes size) v := rfl
@[simp] theorem State.bound_single_borrow (s : State) (size : IntSize) (off v : Nat) :
    (s.bound (.single size off) v).borrow = .mutably := rfl
@[simp] theorem State.bound_config (s : State) (sh : Shape) (v : Nat) : (s.bound sh v).config = s.config := by
  cases sh <;> rfl
@[simp] theorem State.bound_hostCommands (s : State) (sh : Shape) (v : Nat) :
    (s.bound sh v).hostCommands = s.hostCommands := by
  cases sh <;> rfl

@[simp] theorem State.unbound_sequence (s t : State) (len byte bit : Nat) : s.unbound (.sequence len byte bit) t = t := rfl
@[simp] theorem State.unbound_single_mem (s t : State) (size : IntSize) (off : Nat) :
    (s.unbound (.single size off) t).mem = s.mem := rfl
@[simp] theorem State.unbound_single_borrow (s t : State) (size : IntSize) (off : Nat) :
    (s.unbound (.single size off) t).borrow = s.borrow := rfl
@[simp] theorem State.unbound_config (s t : State) (sh : Shape) : (s.unbound sh t).config = t.config := by
  cases sh <;> rfl
@[simp] theorem State.unbound_hostCommands (s t : State) (sh : Shape) : (s.unbound sh t).hostCommands = t.hostCommands := by
  cases sh <;> rfl
@[simp] theorem State.unbound_response (s t : State) (sh : Shape) : (s.unbound sh t).response = t.response := by
  cases sh <;> rfl
@[simp] theorem State.unbound_accesses (s t : State) (sh : Shape) : (s.unbound sh t).accesses = t.accesses := by
  cases sh <;> rfl

end Sys2Proof.Machine
end

