-- ==== Sys2Proof/Laws/Memory.lean ====
section
/-! SUPPORT. The laws of the source memory: what a read gives after a replacement, and that a replacement keeps the listed
indices, the size and the canonical form. -/

namespace Sys2Proof.Machine

@[simp] theorem Memory.read_nil (i : Nat) : Memory.read [] i = none := rfl

theorem Memory.read_cons (c : Host.Cell) (m : Memory) (i : Nat) :
    Memory.read (c :: m) i = if c.1 = i then some c.2 else Memory.read m i := rfl

@[simp] theorem Memory.set_nil (i : Nat) (b : Byte) : Memory.set [] i b = [] := rfl

theorem Memory.set_cons (c : Host.Cell) (m : Memory) (i : Nat) (b : Byte) :
    Memory.set (c :: m) i b = (if c.1 = i then (c.1, b) else c) :: Memory.set m i b := rfl

/-- A replaced byte reads as the new value, where there was a byte. -/
theorem Memory.read_set_same (m : Memory) (i : Nat) (b : Byte) :
    (m.set i b).read i = (m.read i).map fun _ => b := by
  induction m with
  | nil => rfl
  | cons c m ih =>
    by_cases h : c.1 = i <;> simp [Memory.set_cons, Memory.read_cons, h, ih]

/-- A replacement leaves every other byte alone. -/
theorem Memory.read_set_other (m : Memory) {i j : Nat} (b : Byte) (h : j ≠ i) :
    (m.set i b).read j = m.read j := by
  induction m with
  | nil => rfl
  | cons c m ih =>
    rw [Memory.set_cons, Memory.read_cons, Memory.read_cons, ih]
    by_cases hc : c.1 = i
    · have : c.1 ≠ j := fun hj => h (hj ▸ hc)
      simp [hc, Ne.symm h]
    · simp [hc]

/-- A replacement keeps the listed indices. -/
@[simp] theorem Memory.indices_set (m : Memory) (i : Nat) (b : Byte) :
    (m.set i b).map Prod.fst = m.map Prod.fst := by
  simp only [Memory.set, List.map_map]
  refine List.map_congr_left fun c _ => ?_
  by_cases h : c.1 = i <;> simp [h]

theorem Memory.sizeFrom_set (m : Memory) (k i : Nat) (b : Byte) :
    Memory.sizeFrom k (m.set i b) = Memory.sizeFrom k m := by
  induction m generalizing k with
  | nil => rfl
  | cons c m ih =>
    rw [Memory.set_cons]
    by_cases h : c.1 = i <;> simp [h, Memory.sizeFrom, ih]

/-- A replacement keeps the byte count. -/
@[simp] theorem Memory.size_set (m : Memory) (i : Nat) (b : Byte) : (m.set i b).size = m.size :=
  Memory.sizeFrom_set m 0 i b

/-- The canonical form is a fact about the listed indices alone. -/
theorem Memory.wf_iff (m : Memory) : m.wf = true ↔ (m.map Prod.fst).Pairwise (· < ·) := by
  simp [Memory.wf, List.pairwise_map]

/-- A replacement keeps the canonical form. -/
@[simp] theorem Memory.wf_set (m : Memory) (i : Nat) (b : Byte) : (m.set i b).wf = m.wf := by
  rw [Bool.eq_iff_iff, Memory.wf_iff, Memory.wf_iff, Memory.indices_set]

theorem Memory.le_sizeFrom (m : Memory) (k : Nat) : k ≤ Memory.sizeFrom k m := by
  induction m generalizing k with
  | nil => exact Nat.le_refl k
  | cons c m ih =>
    rw [Memory.sizeFrom]
    split
    · exact Nat.le_of_succ_le (ih (k + 1))
    · exact Nat.le_refl k

theorem Memory.read_of_lt_sizeFrom (m : Memory) (k i : Nat) (hk : k ≤ i) (hi : i < Memory.sizeFrom k m) :
    ∃ b, m.read i = some b := by
  induction m generalizing k with
  | nil => exact absurd hi (Nat.not_lt.mpr hk)
  | cons c m ih =>
    rw [Memory.sizeFrom] at hi
    split at hi
    · next hc =>
      by_cases h : k = i
      · exact ⟨c.2, by rw [Memory.read_cons, if_pos (hc.trans h)]⟩
      · obtain ⟨b, hb⟩ := ih (k + 1) (by omega) hi
        exact ⟨b, by rw [Memory.read_cons, if_neg (by omega), hb]⟩
    · omega

/-- Every index below the byte count holds a byte. -/
theorem Memory.read_of_lt_size (m : Memory) {i : Nat} (hi : i < m.size) : ∃ b, m.read i = some b :=
  m.read_of_lt_sizeFrom 0 i (Nat.zero_le i) hi

/-- Replacing a byte keeps every bit of every other byte. -/
theorem Memory.bit_set_other (m : Memory) {i k : Nat} (b : Byte) (h : k / 8 ≠ i) : (m.set i b).bit k = m.bit k := by
  rw [Memory.bit, Memory.bit, Memory.read_set_other m b h]

/-- The bits of a replaced byte are those of the new value, where there was a byte. -/
theorem Memory.bit_set_same (m : Memory) {i k : Nat} (b : Byte) (h : k / 8 = i) :
    (m.set i b).bit k = (m.read i).map fun _ => bitAt b (k % 8) := by
  rw [Memory.bit, h, Memory.read_set_same, Option.map_map]
  rfl

/-- Every position below eight times the byte count holds a bit. -/
theorem Memory.bit_of_lt_size (m : Memory) {k : Nat} (h : k < 8 * m.size) : ∃ b, m.bit k = some b := by
  obtain ⟨b, hb⟩ := m.read_of_lt_size (i := k / 8) (by omega)
  exact ⟨_, by rw [Memory.bit, hb]; rfl⟩

end Sys2Proof.Machine
end

