-- ==== Sys2Proof/Laws/Operands.lean ====
section
/-! SUPPORT. The arithmetic of a field's span and of the part of it in one byte, and the field value as a sum of such parts. -/

namespace Sys2Proof

theorem spanLen_zero (abs : Nat) : spanLen abs 0 = 0 := rfl

theorem spanLen_pos (abs : Nat) {width : Nat} (h : 0 < width) :
    spanLen abs width = lastByte abs width - firstByte abs + 1 := if_neg (Nat.ne_of_gt h)

theorem firstByte_le_lastByte (abs : Nat) {width : Nat} (h : 0 < width) : firstByte abs ≤ lastByte abs width :=
  Nat.div_le_div_right (by omega)

/-- The bytes of the span are those from the first to the last. -/
theorem mem_span_iff {abs width i : Nat} (h : 0 < width) :
    i ∈ span abs width ↔ firstByte abs ≤ i ∧ i ≤ lastByte abs width := by
  have := firstByte_le_lastByte abs h
  simp only [span, spanLen_pos abs h, List.mem_range'_1]
  omega

/-- Every byte of the span of a field inside a source of `n` bytes is one of them. -/
theorem mem_span_lt {abs width n i : Nat} (hend : abs + width ≤ 8 * n) (hi : i ∈ span abs width) : i < n := by
  rcases Nat.eq_zero_or_pos width with rfl | h
  · simp [span, spanLen_zero] at hi
  · have := (mem_span_iff h).mp hi
    have hl : lastByte abs width = (abs + width - 1) / 8 := rfl
    omega

/-- How many bits of the field lie before byte `i`. -/
def bitsBefore (abs width i : Nat) : Nat := min (abs + width) (8 * i) - abs

theorem bitsBefore_first (abs width : Nat) : bitsBefore abs width (firstByte abs) = 0 := by
  simp only [bitsBefore, firstByte]; omega

theorem bitsBefore_end (abs : Nat) {width : Nat} (h : 0 < width) :
    bitsBefore abs width (lastByte abs width + 1) = width := by
  simp only [bitsBefore, lastByte]; omega

/-- The arithmetic of one byte `i` of the span: where its part of the field begins and ends, and how the parts join. -/
theorem fieldPart_of_mem_span {abs width i : Nat} (h : 0 < width) (hi : i ∈ span abs width) :
    8 * i + fieldLo abs i = abs + bitsBefore abs width i ∧ fieldLo abs i ≤ fieldHi abs width i ∧ fieldHi abs width i ≤ 7 ∧
      bitsBefore abs width (i + 1) = bitsBefore abs width i + fieldBits abs width i ∧
      bitsAfter abs width i + bitsBefore abs width (i + 1) = width := by
  have := (mem_span_iff h).mp hi
  simp only [firstByte, lastByte, fieldLo, fieldHi, fieldBits, bitsBefore, bitsAfter] at *
  omega

end Sys2Proof

namespace Sys2Proof.Machine

theorem Memory.fieldValue_zero (m : Memory) (abs : Nat) : m.fieldValue abs 0 = some 0 := rfl

theorem Memory.fieldValue_succ (m : Memory) {abs w u : Nat} {b : Bool} (hu : m.fieldValue abs w = some u)
    (hb : m.bit (abs + w) = some b) : m.fieldValue abs (w + 1) = some (2 * u + b.toNat) := by
  rw [Memory.fieldValue, hu, hb]

/-- A field's value fits in its width. -/
theorem Memory.fieldValue_lt (m : Memory) {abs w u : Nat} (h : m.fieldValue abs w = some u) : u < 2 ^ w := by
  induction w generalizing u with
  | zero => simp [Memory.fieldValue] at h; omega
  | succ w ih =>
    rw [Memory.fieldValue] at h
    split at h
    · next u' b hu _ =>
      have := ih hu
      have hb : b.toNat ≤ 1 := Bool.toNat_le b
      obtain rfl := Option.some.inj h
      rw [Nat.pow_succ]
      omega
    · cases h

/-- The value of a field of adjoining parts: the first part in the high bits. -/
theorem Memory.fieldValue_add (m : Memory) {abs a n u v : Nat} (hu : m.fieldValue abs a = some u)
    (hv : m.fieldValue (abs + a) n = some v) : m.fieldValue abs (a + n) = some (u * 2 ^ n + v) := by
  induction n generalizing v with
  | zero => simp [Memory.fieldValue] at hv; subst hv; simpa using hu
  | succ n ih =>
    rw [Memory.fieldValue] at hv
    split at hv
    · next v' b hv' hb =>
      obtain rfl := Option.some.inj hv
      rw [← Nat.add_assoc, Memory.fieldValue_succ m (ih hv') (by rwa [← Nat.add_assoc]), Nat.pow_succ]
      congr 1; ring
    · cases hv

/-- The value of a field inside one byte: a slice of that byte. -/
theorem Memory.fieldValue_byte (m : Memory) {i lo n : Nat} {b : Byte} (hb : m.read i = some b) (h : lo + n ≤ 8) :
    m.fieldValue (8 * i + lo) n = some (b.toNat / 2 ^ (8 - lo - n) % 2 ^ n) := by
  induction n with
  | zero => simp [Memory.fieldValue, Nat.mod_one]
  | succ n ih =>
    have hbit : m.bit (8 * i + lo + n) = some (b.toNat.testBit (8 - lo - (n + 1))) := by
      have hd : (8 * i + lo + n) / 8 = i := by omega
      have hm : (8 * i + lo + n) % 8 = lo + n := by omega
      rw [Memory.bit, hd, hb, hm, Option.map_some, bitAt, BitVec.getLsbD]
      congr 2; omega
    rw [Memory.fieldValue_succ m (ih (by omega)) hbit]
    congr 1
    have he : 8 - lo - n = 8 - lo - (n + 1) + 1 := by omega
    rw [he, Nat.pow_succ, ← Nat.div_div_eq_div_mul, Nat.pow_succ', Nat.mod_mul, Nat.testBit_eq_decide_div_mod_eq]
    rcases Nat.mod_two_eq_zero_or_one (b.toNat / 2 ^ (8 - lo - (n + 1))) with h0 | h0
    · simp [h0]
    · simp [h0]; omega

/-- The chunk the read path takes from a byte of the span is the value of the field's part in that byte. -/
theorem Memory.fieldValue_chunk (m : Memory) {abs width i : Nat} {b : Byte} (h : 0 < width) (hi : i ∈ span abs width)
    (hb : m.read i = some b) :
    m.fieldValue (abs + bitsBefore abs width i) (fieldBits abs width i) = some (readChunk abs width i b) := by
  obtain ⟨hlo, hle, h7, -, -⟩ := fieldPart_of_mem_span h hi
  have hn : fieldBits abs width i = fieldHi abs width i - fieldLo abs i + 1 := rfl
  rw [← hlo, m.fieldValue_byte hb (by omega), readChunk, Nat.and_two_pow_sub_one_eq_mod, Nat.shiftRight_eq_div_pow]
  congr 4; omega

/-- Where every bit of a field exists, the field has a value. -/
theorem Memory.fieldValue_of_size (m : Memory) {abs w : Nat} (h : abs + w ≤ 8 * m.size) : ∃ u, m.fieldValue abs w = some u := by
  induction w with
  | zero => exact ⟨0, rfl⟩
  | succ w ih =>
    obtain ⟨u, hu⟩ := ih (by omega)
    obtain ⟨b, hb⟩ := m.bit_of_lt_size (k := abs + w) (by omega)
    exact ⟨_, m.fieldValue_succ hu hb⟩

end Sys2Proof.Machine
end

