-- ==== Sys2Proof/Laws/Ops.lean ====
section
/-! SUPPORT. What each shared operation can do, said once: the byte accesses, the two walks, the two shapes of a command. -/

namespace Sys2Proof.Machine

/-! ## Byte accesses -/

theorem State.memRead_eq {s : State} {i : Nat} {b : Byte} (h : s.mem.read i = some b) :
    s.memRead i = some (b, s.logAccess (.read i)) := by
  rw [State.memRead, h]

theorem State.memWrite_eq {s : State} {i : Nat} {b : Byte} (b' : Byte) (h : s.mem.read i = some b) :
    s.memWrite i b' = some ((s.withMem (s.mem.set i b')).logAccess (.write i)) := by
  rw [State.memWrite, h]

/-! ## The read walk -/

/-- Where every byte of the walk exists, the walk answers; it only logs its reads, and the accumulator stays the value of the part
of the field read so far. -/
theorem extractWalk_eq {abs width : Nat} (hw : 0 < width) (n i acc : Nat) (s : State)
    (hspan : ∀ j, i ≤ j → j < i + n → j ∈ span abs width ∧ ∃ b, s.mem.read j = some b)
    (hacc : s.mem.fieldValue abs (bitsBefore abs width i) = some acc) :
    ∃ u, s.mem.fieldValue abs (bitsBefore abs width (i + n)) = some u ∧
      extractWalk abs width n i acc s =
        some (u, { s with accesses := s.accesses ++ (List.range' i n).map .read }) := by
  induction n generalizing i acc s with
  | zero => exact ⟨acc, hacc, by simp [extractWalk]⟩
  | succ n ih =>
    obtain ⟨hi, b, hb⟩ := hspan i (Nat.le_refl i) (by omega)
    have hchunk := s.mem.fieldValue_chunk hw hi hb
    have hstep := s.mem.fieldValue_add hacc hchunk
    rw [← (fieldPart_of_mem_span hw hi).2.2.2.1,
      ← Nat.shiftLeft_eq, Nat.shiftLeft_add_eq_or_of_lt (s.mem.fieldValue_lt hchunk)] at hstep
    obtain ⟨u, hu, hrun⟩ := ih (i + 1) _ (s.logAccess (.read i))
      (fun j h1 h2 => hspan j (by omega) (by omega)) hstep
    refine ⟨u, by rwa [Nat.add_right_comm] at hu, ?_⟩
    rw [extractWalk, State.memRead_eq hb]
    simp only
    rw [hrun]
    simp [State.logAccess, List.range'_succ]

/-- Reading a field of a source whose bytes exist: the field's value, and nothing changed but the accesses. -/
theorem State.extractField_eq {s : State} {abs width u : Nat} (h : abs + width ≤ 8 * s.mem.size)
    (hu : s.mem.fieldValue abs width = some u) :
    s.extractField abs width = some (u, { s with accesses := readAccesses abs width }) := by
  rcases Nat.eq_zero_or_pos width with rfl | hw
  · obtain rfl : 0 = u := by simpa [Memory.fieldValue] using hu
    rfl
  · obtain ⟨u', hu', hrun⟩ := extractWalk_eq hw (spanLen abs width) (firstByte abs) 0 s.beginTransfer
      (fun j h1 h2 => by
        have hj : j ∈ span abs width := by simp only [span, List.mem_range'_1]; omega
        exact ⟨hj, s.mem.read_of_lt_size (mem_span_lt h hj)⟩)
      (by rw [bitsBefore_first]; rfl)
    have he : firstByte abs + spanLen abs width = lastByte abs width + 1 := by
      have := firstByte_le_lastByte abs hw
      rw [spanLen_pos abs hw]; omega
    rw [he, bitsBefore_end abs hw] at hu'
    obtain rfl : u = u' := Option.some.inj (hu.symm.trans hu')
    rw [State.extractField, hrun]
    simp [State.beginTransfer, readAccesses, span]

/-! ## The write walk -/

/-- The bits of a patched byte: the value's at the positions of the field, the old ones elsewhere. -/
theorem bitAt_patchByte {abs width v i p : Nat} (b : Byte) (hw : 0 < width) (hi : i ∈ span abs width) (hp : p < 8) :
    bitAt (patchByte abs width v i b) p =
      if abs ≤ 8 * i + p ∧ 8 * i + p < abs + width then v.testBit (abs + width - 1 - (8 * i + p)) else bitAt b p := by
  have hs := (mem_span_iff hw).mp hi
  have hq : 7 - p < 8 := by omega
  have hlo : fieldLo abs i = max abs (8 * i) - 8 * i := rfl
  have hhi : fieldHi abs width i = min (abs + width - 1) (8 * i + 7) - 8 * i := rfl
  have hn : fieldBits abs width i = fieldHi abs width i - fieldLo abs i + 1 := rfl
  have hr : bitsAfter abs width i = (abs + width - 1) - (8 * i + fieldHi abs width i) := rfl
  simp only [firstByte, lastByte] at hs
  simp only [bitAt, patchByte, fieldMask, valueChunk, BitVec.getLsbD_or, BitVec.getLsbD_and, BitVec.getLsbD_not,
    BitVec.getLsbD_ofNat, hq, Nat.testBit_shiftLeft, Nat.testBit_two_pow_sub_one, Nat.testBit_and, Nat.testBit_shiftRight]
  by_cases hin : abs ≤ 8 * i + p ∧ 8 * i + p < abs + width
  · have h1 : 7 - fieldHi abs width i ≤ 7 - p := by omega
    have h2 : 7 - p - (7 - fieldHi abs width i) < fieldBits abs width i := by omega
    have h3 : bitsAfter abs width i + (7 - p - (7 - fieldHi abs width i)) = abs + width - 1 - (8 * i + p) := by omega
    simp [hin, h1, h2, h3]
  · have h1 : ¬(7 - fieldHi abs width i ≤ 7 - p ∧ 7 - p - (7 - fieldHi abs width i) < fieldBits abs width i) := by omega
    simp only [hin, if_false]
    by_cases h2 : 7 - fieldHi abs width i ≤ 7 - p
    · have h3 : ¬ 7 - p - (7 - fieldHi abs width i) < fieldBits abs width i := fun h => h1 ⟨h2, h⟩
      simp [h3]
    · simp [h2]

/-- A source that differs from another only in its bytes from `i` to `i + n - 1`, each patched with its part of the value. -/
structure PatchedFrom (abs width v n i : Nat) (m m' : Memory) : Prop where
  read : ∀ j, m'.read j = if i ≤ j ∧ j < i + n then (m.read j).map (patchByte abs width v j) else m.read j
  indices : m'.map Prod.fst = m.map Prod.fst
  size : m'.size = m.size

/-- Where every byte of the walk exists, the walk answers: it patches those bytes and logs its accesses. -/
theorem injectWalk_eq (abs width v n i : Nat) (s : State) (h : ∀ j, i ≤ j → j < i + n → ∃ b, s.mem.read j = some b) :
    ∃ m', PatchedFrom abs width v n i s.mem m' ∧
      injectWalk abs width v n i s =
        some { s with mem := m', accesses := s.accesses ++ (List.range' i n).flatMap fun j => [.read j, .write j] } := by
  induction n generalizing i s with
  | zero => exact ⟨s.mem, ⟨fun j => (if_neg (by omega)).symm, rfl, rfl⟩, by simp [injectWalk]⟩
  | succ n ih =>
    obtain ⟨b, hb⟩ := h i (Nat.le_refl i) (by omega)
    let m₁ := s.mem.set i (patchByte abs width v i b)
    have hread₁ : ∀ j, m₁.read j = if j = i then some (patchByte abs width v i b) else s.mem.read j := fun j => by
      by_cases hj : j = i
      · subst hj; rw [if_pos rfl, Memory.read_set_same, hb]; rfl
      · rw [if_neg hj, Memory.read_set_other s.mem _ hj]
    obtain ⟨m', hm', hrun⟩ := ih (i + 1) (((s.logAccess (.read i)).withMem m₁).logAccess (.write i)) (fun j h1 h2 => by
      have hj : j ≠ i := by omega
      simpa [hread₁, hj] using h j (by omega) (by omega))
    refine ⟨m', ⟨fun j => ?_, ?_, ?_⟩, ?_⟩
    · rw [hm'.read j]
      simp only [State.logAccess_mem, State.withMem_mem, hread₁]
      by_cases hj : j = i
      · subst hj; simp [hb]
      · have : (i + 1 ≤ j ∧ j < i + 1 + n) ↔ (i ≤ j ∧ j < i + (n + 1)) := by omega
        simp only [hj, if_false, this]
    · rw [hm'.indices]; simp [m₁]
    · rw [hm'.size]; simp [m₁]
    · have hb' : (s.logAccess (.read i)).mem.read i = some b := hb
      rw [injectWalk, State.memRead_eq hb]
      simp only
      rw [State.memWrite_eq _ hb']
      simp only
      refine hrun.trans ?_
      simp [State.logAccess, State.withMem, List.range'_succ]

/-- The bits of a patched source: the value's in the field, the old ones everywhere else. -/
theorem PatchedFrom.bit {abs width v : Nat} {m m' : Memory} (hw : 0 < width)
    (h : PatchedFrom abs width v (spanLen abs width) (firstByte abs) m m') (k : Nat) :
    m'.bit k = if abs ≤ k ∧ k < abs + width then (m.bit k).map fun _ => v.testBit (abs + width - 1 - k) else m.bit k := by
  have hk : 8 * (k / 8) + k % 8 = k := Nat.div_add_mod k 8
  rw [Memory.bit, h.read (k / 8)]
  by_cases hs : k / 8 ∈ span abs width
  · have hr : firstByte abs ≤ k / 8 ∧ k / 8 < firstByte abs + spanLen abs width := by
      simpa [span, List.mem_range'_1] using hs
    rw [if_pos hr, Memory.bit, Option.map_map]
    have hb := fun b : Byte => bitAt_patchByte (v := v) b hw hs (Nat.mod_lt k (by omega : 0 < 8))
    rw [hk] at hb
    split
    · next hin => rw [Option.map_map]; exact Option.map_congr fun b _ => by simp [hb, hin]
    · next hin => exact Option.map_congr fun b _ => by simp [hb, hin]
  · have hr : ¬(firstByte abs ≤ k / 8 ∧ k / 8 < firstByte abs + spanLen abs width) := by
      simpa [span, List.mem_range'_1] using hs
    have hin : ¬(abs ≤ k ∧ k < abs + width) := fun hin => hs ((mem_span_iff hw).mpr (by
      simp only [firstByte, lastByte]; omega))
    rw [if_neg hr, if_neg hin, Memory.bit]

/-- Writing a field of a source whose bytes exist: the field's bytes are patched, and nothing else changes but the accesses. -/
theorem State.injectField_eq {s : State} {abs width : Nat} (v : Nat) (h : abs + width ≤ 8 * s.mem.size) :
    ∃ m', PatchedFrom abs width v (spanLen abs width) (firstByte abs) s.mem m' ∧
      s.injectField abs width v = some { s with mem := m', accesses := writeAccesses abs width } := by
  obtain ⟨m', hm', hrun⟩ := injectWalk_eq abs width v (spanLen abs width) (firstByte abs) s.beginTransfer
    (fun j h1 h2 => s.mem.read_of_lt_size (mem_span_lt h (by simp only [span, List.mem_range'_1]; omega)))
  refine ⟨m', hm', ?_⟩
  rw [State.injectField, hrun]
  simp [State.beginTransfer, writeAccesses, span]

end Sys2Proof.Machine
end

