-- ==== Sys2Proof/Laws/Exec.lean ====
section
/-! SUPPORT. What a command can do, said once: the Addressor's answer, the two shapes of a command, and every constructor as one
of them. -/

namespace Sys2Proof.Machine

/-! ## The Addressor -/

/-- When the Addressor accepts a request, and what it then answers. -/
theorem validate_ok_iff {policy : ZeroWidthPolicy} {p : Place} {width cap a : Nat} :
    validate policy p width cap = .ok a ↔
      a = p.abs ∧ ¬(policy = .reject ∧ width = 0) ∧ p.abs < p.total ∧ width ≤ cap ∧ p.abs + width ≤ p.total := by
  rw [validate]
  split
  · next h => simp [h]
  split
  · next h h' => simp [Nat.not_lt.mpr h']
  split
  · next h => simp [Nat.not_le.mpr h]
  split
  · next h => simp [Nat.not_le.mpr h]
  · next h1 h2 h3 h4 =>
    simp only [Except.ok.injEq]
    constructor
    · rintro rfl; exact ⟨rfl, h1, by omega, by omega, by omega⟩
    · rintro ⟨rfl, -⟩; rfl

/-- The Addressor never answers OK as a failure. -/
theorem validate_error_ne_ok {policy : ZeroWidthPolicy} {p : Place} {width cap : Nat} {status : Status}
    (h : validate policy p width cap = .error status) : status ≠ .ok := by
  rintro rfl
  rw [validate] at h
  repeat' split at h
  all_goals cases h

/-! ## The two shapes of a command -/

theorem runRead_of_error {p : Place} {width cap : Nat} {result : Nat → Bus} {s : State} {status : Status}
    (hn : p.srcLen ≤ s.mem.size) (hv : validate s.config.zeroWidthPolicy p width cap = .error status) :
    runRead p width cap result s = .next (s.raise status) := by
  rw [runRead, if_neg (Nat.not_lt.mpr hn), hv]

/-- A read command whose request is valid: the field's value in its result form, and the accesses of its span. -/
theorem runRead_of_ok {p : Place} {width cap a : Nat} {result : Nat → Bus} {s : State}
    (hn : p.srcLen ≤ s.mem.size) (hv : validate s.config.zeroWidthPolicy p width cap = .ok a) :
    ∃ u, s.mem.fieldValue p.abs width = some u ∧
      runRead p width cap result s =
        .next { s with response := some ⟨.ok, result u⟩, accesses := readAccesses p.abs width } := by
  obtain ⟨rfl, -, -, -, hend⟩ := validate_ok_iff.mp hv
  have hsize : p.abs + width ≤ 8 * s.mem.size := Nat.le_trans hend (Nat.mul_le_mul_left 8 hn)
  obtain ⟨u, hu⟩ := s.mem.fieldValue_of_size hsize
  refine ⟨u, hu, ?_⟩
  rw [runRead, if_neg (Nat.not_lt.mpr hn), hv]
  simp only
  rw [State.extractField_eq hsize hu]
  rfl

theorem runWrite_of_error {p : Place} {width cap : Nat} {value : Bus} {s : State} {status : Status}
    (hn : p.srcLen ≤ s.mem.size) (hb : s.borrow = .mutably)
    (hv : validate s.config.zeroWidthPolicy p width cap = .error status) :
    runWrite p width cap value s = .next (s.raise status) := by
  rw [runWrite, if_neg (Nat.not_lt.mpr hn), if_neg (by simp [hb]), hv]

/-- A write command whose request is valid: the bytes of its span patched, and the accesses of its span. -/
theorem runWrite_of_ok {p : Place} {width cap a : Nat} {value : Bus} {s : State}
    (hn : p.srcLen ≤ s.mem.size) (hb : s.borrow = .mutably)
    (hv : validate s.config.zeroWidthPolicy p width cap = .ok a) :
    ∃ m', PatchedFrom p.abs width (truncValue width value) (spanLen p.abs width) (firstByte p.abs) s.mem m' ∧
      runWrite p width cap value s =
        .next { s with mem := m', response := some ⟨.ok, 0⟩, accesses := writeAccesses p.abs width } := by
  obtain ⟨rfl, -, -, -, hend⟩ := validate_ok_iff.mp hv
  have hsize : p.abs + width ≤ 8 * s.mem.size := Nat.le_trans hend (Nat.mul_le_mul_left 8 hn)
  obtain ⟨m', hm', hrun⟩ := State.injectField_eq (truncValue width value) hsize
  refine ⟨m', hm', ?_⟩
  rw [runWrite, if_neg (Nat.not_lt.mpr hn), if_neg (by simp [hb]), hv]
  simp only
  rw [hrun]
  rfl

/-! ## Every command as one of the two shapes -/

/-- The form of a read command's result; a write command has none. -/
def resultOf : Instr → Nat → Bus
  | .test _ => zextResult
  | .extu8 _ _ => zextResult
  | .extu16 _ _ => zextResult
  | .extu32 _ _ => zextResult
  | .extu64 _ _ => zextResult
  | .exts8 _ w => sextResult 8 w
  | .exts16 _ w => sextResult 16 w
  | .exts32 _ w => sextResult 32 w
  | .exts64 _ w => sextResult 64 w
  | .setb _ => fun _ => 0
  | .clrb _ => fun _ => 0
  | .ins8 _ _ _ => fun _ => 0
  | .ins16 _ _ _ => fun _ => 0
  | .ins32 _ _ _ => fun _ => 0
  | .ins64 _ _ _ => fun _ => 0

/-- The value a write command inserts; a read command has none. -/
def valueOf : Instr → Bus
  | .setb _ => 1
  | .clrb _ => 0
  | .ins8 _ _ v => v
  | .ins16 _ _ v => v
  | .ins32 _ _ v => v
  | .ins64 _ _ v => v
  | .test _ => 0
  | .extu8 _ _ => 0
  | .extu16 _ _ => 0
  | .extu32 _ _ => 0
  | .extu64 _ _ => 0
  | .exts8 _ _ => 0
  | .exts16 _ _ => 0
  | .exts32 _ _ => 0
  | .exts64 _ _ => 0

theorem exec_of_reads {i : Instr} (h : i.writes = false) (s : State) :
    exec i s = runRead i.place i.width i.capacity (resultOf i) s := by
  cases i <;> first | rfl | cases h

theorem exec_of_writes {i : Instr} (h : i.writes = true) (s : State) :
    exec i s = runWrite i.place i.width i.capacity (valueOf i) s := by
  cases i <;> first | rfl | cases h

theorem State.grants_iff {s : State} {i : Instr} :
    s.grants i = true ↔ i.place.srcLen ≤ s.mem.size ∧ (i.writes = true → s.borrow = .mutably) := by
  cases h : i.writes <;> simp [State.grants, h]

/-- A command answers a next state exactly where the host has granted it. -/
theorem grants_of_exec_next {i : Instr} {s t : State} (h : exec i s = .next t) : s.grants i = true := by
  rw [State.grants_iff]
  cases hw : i.writes
  · rw [exec_of_reads hw, runRead] at h
    split at h
    · cases h
    · exact ⟨by omega, by simp⟩
  · rw [exec_of_writes hw, runWrite] at h
    split at h
    · cases h
    split at h
    · cases h
    · next hn hb => exact ⟨by omega, fun _ => by cases hs : s.borrow <;> simp_all⟩

/-- What the host's grant gives: the request fails and nothing happens but the response, or it is valid and the command does its
transfer. -/
theorem exec_of_error {i : Instr} {s : State} {status : Status} (hg : s.grants i = true)
    (hv : validate s.config.zeroWidthPolicy i.place i.width i.capacity = .error status) :
    exec i s = .next (s.raise status) := by
  obtain ⟨hn, hb⟩ := State.grants_iff.mp hg
  cases hw : i.writes
  · rw [exec_of_reads hw, runRead_of_error hn hv]
  · rw [exec_of_writes hw, runWrite_of_error hn (hb hw) hv]

/-- Everything a command can do when it answers a next state. -/
theorem exec_next_cases {i : Instr} {s t : State} (h : exec i s = .next t) :
    s.grants i = true ∧
      ((∃ status, status ≠ .ok ∧ validate s.config.zeroWidthPolicy i.place i.width i.capacity = .error status ∧
          t = s.raise status) ∨
        (validate s.config.zeroWidthPolicy i.place i.width i.capacity = .ok i.place.abs ∧ i.writes = false ∧
          ∃ u, s.mem.fieldValue i.place.abs i.width = some u ∧
            t = { s with response := some ⟨.ok, resultOf i u⟩, accesses := readAccesses i.place.abs i.width }) ∨
        (validate s.config.zeroWidthPolicy i.place i.width i.capacity = .ok i.place.abs ∧ i.writes = true ∧
          ∃ m', PatchedFrom i.place.abs i.width (truncValue i.width (valueOf i)) (spanLen i.place.abs i.width)
              (firstByte i.place.abs) s.mem m' ∧
            t = { s with mem := m', response := some ⟨.ok, 0⟩, accesses := writeAccesses i.place.abs i.width })) := by
  have hg := grants_of_exec_next h
  obtain ⟨hn, hb⟩ := State.grants_iff.mp hg
  refine ⟨hg, ?_⟩
  cases hv : validate s.config.zeroWidthPolicy i.place i.width i.capacity with
  | error status =>
    rw [exec_of_error hg hv, Host.Outcome.next.injEq] at h
    exact .inl ⟨status, validate_error_ne_ok hv, rfl, h.symm⟩
  | ok a =>
    obtain rfl := (validate_ok_iff.mp hv).1
    cases hw : i.writes
    · obtain ⟨u, hu, hrun⟩ := runRead_of_ok (result := resultOf i) hn hv
      rw [exec_of_reads hw, hrun, Host.Outcome.next.injEq] at h
      exact .inr (.inl ⟨rfl, rfl, u, hu, h.symm⟩)
    · obtain ⟨m', hm', hrun⟩ := runWrite_of_ok (value := valueOf i) hn (hb hw) hv
      rw [exec_of_writes hw, hrun, Host.Outcome.next.injEq] at h
      exact .inr (.inr ⟨rfl, rfl, m', hm', h.symm⟩)

end Sys2Proof.Machine
end

