-- ==== Sys2Proof/Laws/Fields.lean ====
section
/-! SUPPORT. A field's bits and its value, each from the other; the bits of a sign-extended result; a one-bit field read and
written; and the valid requests of every capacity as one next state. -/

namespace Sys2Proof.Machine

/-! ## A field's bits and its value -/

/-- The bits of a field, from its value: the first bit is the most significant. -/
theorem Memory.bit_of_fieldValue (m : Memory) {abs w u : Nat} (h : m.fieldValue abs w = some u) :
    ∀ j < w, m.bit (abs + j) = some (u.testBit (w - 1 - j)) := by
  induction w generalizing u with
  | zero => intro j hj; omega
  | succ w ih =>
    rw [Memory.fieldValue] at h
    split at h
    · next u' b hu hb =>
      cases h
      intro j hj
      by_cases hjw : j = w
      · subst hjw
        rw [hb]
        congr 1
        simp only [Nat.add_sub_cancel, Nat.sub_self, Nat.testBit_zero]
        cases b <;> simp [Nat.add_mod]
      · rw [ih hu j (by omega), show w + 1 - 1 - j = w - 1 - j + 1 by omega, Nat.testBit_succ]
        congr 2
        cases b <;> (simp; try omega)
    · cases h

/-- A field's value, from its bits. -/
theorem Memory.fieldValue_of_bits (m : Memory) (abs w x : Nat)
    (h : ∀ j < w, m.bit (abs + j) = some (x.testBit (w - 1 - j))) : m.fieldValue abs w = some (x % 2 ^ w) := by
  have key : ∀ j ≤ w, m.fieldValue abs j = some (x / 2 ^ (w - j) % 2 ^ j) := by
    intro j
    induction j with
    | zero => intro _; simp [Memory.fieldValue, Nat.mod_one]
    | succ j ih =>
      intro hj
      rw [m.fieldValue_succ (ih (by omega)) (h j (by omega))]
      congr 1
      rw [show w - j = w - (j + 1) + 1 by omega, Nat.pow_succ, ← Nat.div_div_eq_div_mul, Nat.pow_succ', Nat.mod_mul,
        Nat.testBit_eq_decide_div_mod_eq, show w - 1 - j = w - (j + 1) by omega]
      rcases Nat.mod_two_eq_zero_or_one (x / 2 ^ (w - (j + 1))) with h0 | h0 <;> (simp [h0]; try omega)
  simpa using key w (Nat.le_refl w)

/-- Two sources with the same bits in a field have the same value there. -/
theorem Memory.fieldValue_congr {m m' : Memory} {abs w : Nat} (h : ∀ k, abs ≤ k → k < abs + w → m.bit k = m'.bit k) :
    m.fieldValue abs w = m'.fieldValue abs w := by
  induction w with
  | zero => rfl
  | succ w ih =>
    rw [Memory.fieldValue, Memory.fieldValue, ih (fun k h1 h2 => h k h1 (by omega)), h (abs + w) (by omega) (by omega)]

/-- The value of a one-bit field is its bit. -/
theorem Memory.fieldValue_one (m : Memory) {abs u : Nat} (h : m.fieldValue abs 1 = some u) :
    ∃ b, m.bit abs = some b ∧ u = b.toNat := by
  rw [Memory.fieldValue] at h
  split at h
  · next u' b hu hb => cases hu; cases h; exact ⟨b, hb, by simp⟩
  · cases h

/-- The bits of a sign-extended result. -/
theorem getLsbD_sextResult {cap w u : Nat} (h1 : 1 ≤ w) (h2 : w ≤ cap) (h3 : cap ≤ 64) (k : Nat) :
    (sextResult cap w u).getLsbD k = if k < w then u.testBit k else decide (k < cap) && u.testBit (w - 1) := by
  simp only [sextResult, BitVec.getLsbD_setWidth, BitVec.getLsbD_signExtend, BitVec.getLsbD_ofNat,
    BitVec.msb_eq_getLsbD_last]
  by_cases hk : k < w
  · have : k < cap := by omega
    have : k < 64 := by omega
    simp [*]
  · have : w - 1 < w := by omega
    simp [hk, this]
    intro hc _
    omega

/-! ## One-bit fields -/

theorem readAccesses_one (abs : Nat) : readAccesses abs 1 = [.read (abs / 8)] := by
  simp [readAccesses, span, spanLen, firstByte, lastByte]

theorem writeAccesses_one (abs : Nat) : writeAccesses abs 1 = [.read (abs / 8), .write (abs / 8)] := by
  simp [writeAccesses, span, spanLen, firstByte, lastByte]

/-- Two bytes with the same bits at the positions 0 to 7 are equal. -/
theorem byte_ext {a b : Byte} (h : ∀ q < 8, bitAt a q = bitAt b q) : a = b := by
  apply BitVec.eq_of_getLsbD_eq
  intro k hk
  have := h (7 - k) (by omega)
  simp only [bitAt] at this
  rwa [show 7 - (7 - k) = k by omega] at this

/-- Writing a one-bit field reads one byte and replaces it by its patch. -/
theorem State.injectField_one {s : State} {abs : Nat} (v : Nat) {b : Byte} (hb : s.mem.read (abs / 8) = some b) :
    s.injectField abs 1 v =
      some { s with
        mem := s.mem.set (abs / 8) (patchByte abs 1 v (abs / 8) b)
        accesses := [.read (abs / 8), .write (abs / 8)] } := by
  have h1 : spanLen abs 1 = 1 := by simp [spanLen, lastByte, firstByte]
  have hread : s.beginTransfer.mem.read (abs / 8) = some b := hb
  have hwrite : (s.beginTransfer.logAccess (.read (abs / 8))).mem.read (abs / 8) = some b := hb
  rw [State.injectField, h1, firstByte, injectWalk, State.memRead_eq hread]
  simp only
  rw [State.memWrite_eq _ hwrite]
  rfl

/-! ## The valid requests -/

/-- A granted read command whose field is inside the source answers its result. -/
theorem exec_read_valid {i : Instr} (hw : i.writes = false) {s : State} (hn : i.place.srcLen ≤ s.mem.size)
    (h0 : s.config.zeroWidthPolicy = .reject → 1 ≤ i.width) (h1 : i.place.abs < i.place.total)
    (h2 : i.width ≤ i.capacity) (h3 : i.place.abs + i.width ≤ i.place.total) :
    ∃ u, s.mem.fieldValue i.place.abs i.width = some u ∧
      exec i s = .next { s with
        response := some ⟨.ok, resultOf i u⟩
        accesses := readAccesses i.place.abs i.width } := by
  have hv : validate s.config.zeroWidthPolicy i.place i.width i.capacity = .ok i.place.abs :=
    validate_ok_iff.mpr ⟨rfl, fun h => by have := h0 h.1; omega, h1, h2, h3⟩
  obtain ⟨u, hu, hr⟩ := runRead_of_ok (result := resultOf i) hn hv
  exact ⟨u, hu, by rw [exec_of_reads hw, hr]⟩

/-- A granted write command whose field is inside the source patches the bytes of its span. -/
theorem exec_write_valid {i : Instr} (hw : i.writes = true) {s : State} (hn : i.place.srcLen ≤ s.mem.size)
    (hb : s.borrow = .mutably) (h0 : s.config.zeroWidthPolicy = .reject → 1 ≤ i.width)
    (h1 : i.place.abs < i.place.total) (h2 : i.width ≤ i.capacity) (h3 : i.place.abs + i.width ≤ i.place.total) :
    ∃ m', PatchedFrom i.place.abs i.width (truncValue i.width (valueOf i)) (spanLen i.place.abs i.width)
        (firstByte i.place.abs) s.mem m' ∧
      exec i s = .next { s with
        mem := m'
        response := some ⟨.ok, 0⟩
        accesses := writeAccesses i.place.abs i.width } := by
  have hv : validate s.config.zeroWidthPolicy i.place i.width i.capacity = .ok i.place.abs :=
    validate_ok_iff.mpr ⟨rfl, fun h => by have := h0 h.1; omega, h1, h2, h3⟩
  obtain ⟨m', hm, hr⟩ := runWrite_of_ok (value := valueOf i) hn hb hv
  exact ⟨m', hm, by rw [exec_of_writes hw, hr]⟩

/-- `EXTU.c` as one of the read commands. -/
theorem extuOf_eq (c : Capacity) (p : Place) (w : Nat) :
    (extuOf c p w).writes = false ∧ (extuOf c p w).place = p ∧ (extuOf c p w).width = w ∧
      (extuOf c p w).capacity = capacityBits c ∧ resultOf (extuOf c p w) = zextResult := by
  cases c <;> exact ⟨rfl, rfl, rfl, rfl, rfl⟩

/-- `EXTS.c` as one of the read commands. -/
theorem extsOf_eq (c : Capacity) (p : Place) (w : Nat) :
    (extsOf c p w).writes = false ∧ (extsOf c p w).place = p ∧ (extsOf c p w).width = w ∧
      (extsOf c p w).capacity = capacityBits c ∧ resultOf (extsOf c p w) = sextResult (capacityBits c) w := by
  cases c <;> exact ⟨rfl, rfl, rfl, rfl, rfl⟩

/-- `INS.c` as one of the write commands. -/
theorem insOf_eq (c : Capacity) (p : Place) (w : Nat) (v : Bus) :
    (insOf c p w v).writes = true ∧ (insOf c p w v).place = p ∧ (insOf c p w v).width = w ∧
      (insOf c p w v).capacity = capacityBits c ∧ valueOf (insOf c p w v) = v := by
  cases c <;> exact ⟨rfl, rfl, rfl, rfl, rfl⟩

end Sys2Proof.Machine
end

