-- ==== Sys2Proof/Laws/HostOps.lean ====
section
/-! SUPPORT. What running one of BITLAB's operations can do, said once, and an integer re-assembled from its bits. -/

namespace Sys2Proof.Machine

/-- Where an operation's command answers a next state with a response, the operation gives its result and the state with the source
unbound. -/
theorem runHostOp_of_next {op : HostOp} {v : Nat} {s t : State} {r : Response} {result : HostResult}
    (h : exec (hostCommand op) (s.bound (hostShape op) v) = .next t) (hr : t.response = some r)
    (ho : hostResult op r t.mem = some result) :
    runHostOp op v s = some (result, s.unbound (hostShape op) t) := by
  rw [runHostOp, h]
  simp only [hr, ho, Option.map_some]

/-- A failed response gives the failure alone. -/
theorem hostResult_of_failure {op : HostOp} {r : Response} {m : Memory} (h : r.status ≠ .ok) :
    hostResult op r m = some (.failure r.status) := if_neg h

/-- A response that ended OK gives the operation's output. -/
theorem hostResult_of_ok (op : HostOp) (value : Bus) (m : Memory) :
    hostResult op ⟨.ok, value⟩ m = hostOutput op value m := if_pos rfl

/-- The low `c` bits of a bus value, bit by bit. -/
theorem testBit_lowBits (c : Capacity) (value : Bus) (k : Nat) :
    (lowBits c value).testBit k = (decide (k < capacityBits c) && value.getLsbD k) := by
  rw [lowBits, Nat.testBit_mod_two_pow, BitVec.getLsbD]

/-- A byte, from its bits in the source. -/
theorem Memory.read_of_bits (m : Memory) (i : Nat) (b : Byte) (h : ∀ q < 8, m.bit (8 * i + q) = some (bitAt b q)) :
    m.read i = some b := by
  have h0 := h 0 (by decide)
  rw [Memory.bit, show (8 * i + 0) / 8 = i by omega] at h0
  cases hr : m.read i with
  | none => rw [hr] at h0; cases h0
  | some b' =>
    congr 1
    apply byte_ext
    intro q hq
    have := h q hq
    rw [Memory.bit, show (8 * i + q) / 8 = i by omega, hr, show (8 * i + q) % 8 = q by omega] at this
    simpa using this

/-- An integer re-assembled from its bits, the first the most significant. -/
theorem Memory.integer_of_bits (m : Memory) (n v : Nat) (h : ∀ k < 8 * n, m.bit k = some (v.testBit (8 * n - 1 - k))) :
    m.integer n = some (v % 2 ^ (8 * n)) := by
  have key : ∀ j ≤ n, m.integer j = some (v / 2 ^ (8 * (n - j)) % 2 ^ (8 * j)) := by
    intro j
    induction j with
    | zero => intro _; simp [Memory.integer, Nat.mod_one]
    | succ j ih =>
      intro hj
      have hread : m.read j = some (BitVec.ofNat 8 (v / 2 ^ (8 * (n - (j + 1))))) := by
        apply Memory.read_of_bits
        intro q hq
        rw [h _ (by omega), bitAt, BitVec.getLsbD_ofNat, ← Nat.shiftRight_eq_div_pow, Nat.testBit_shiftRight]
        have : 7 - q < 8 := by omega
        simp only [this, decide_true, Bool.true_and]
        congr 2
        omega
      rw [Memory.integer, ih (by omega), hread]
      simp only [BitVec.toNat_ofNat]
      congr 1
      have hdiv : v / 2 ^ (8 * (n - (j + 1) + 1)) = v / 2 ^ (8 * (n - (j + 1))) / 2 ^ 8 := by
        rw [Nat.div_div_eq_div_mul, ← Nat.pow_add]
        congr 2
      rw [show n - j = n - (j + 1) + 1 by omega, hdiv, show 8 * (j + 1) = 8 + 8 * j by omega, Nat.pow_add, Nat.mod_mul]
      omega
  simpa using key n (Nat.le_refl n)

end Sys2Proof.Machine
end

