-- ==== Sys2Proof/Laws/PerInstr.lean ====
section
/-! SUPPORT. A statement about every instruction as syntax: the record a well-formed command is encoded as can be presented, and
carries the command's place. -/

namespace Sys2Proof.Laws.WireFit

/-- On an instance where the command's operands fit, so does its record, and the record names the command's place. -/
def Statement (i : Instr) : Prop :=
  ∀ aw, i.wf aw = true → (encode i).fits aw = true ∧ (encode i).place = i.place

theorem fits_of_place (aw : Nat) (p : Place) (ctl : CtlWord) (v : Bus) (h : p.fits aw = true) :
    (Command.of ctl p v).fits aw = true ∧ (Command.of ctl p v).place = p := by
  simp_all [Place.fits, Command.fits, Command.of, Command.place]

theorem test (p : Place) : Statement (.test p) := fun aw h => fits_of_place aw p _ _ h

theorem setb (p : Place) : Statement (.setb p) := fun aw h => fits_of_place aw p _ _ h

theorem clrb (p : Place) : Statement (.clrb p) := fun aw h => fits_of_place aw p _ _ h

theorem extu8 (p : Place) (width : Nat) : Statement (.extu8 p width) :=
  fun aw h => fits_of_place aw p _ _ (Bool.and_eq_true_iff.mp h).1

theorem extu16 (p : Place) (width : Nat) : Statement (.extu16 p width) :=
  fun aw h => fits_of_place aw p _ _ (Bool.and_eq_true_iff.mp h).1

theorem extu32 (p : Place) (width : Nat) : Statement (.extu32 p width) :=
  fun aw h => fits_of_place aw p _ _ (Bool.and_eq_true_iff.mp h).1

theorem extu64 (p : Place) (width : Nat) : Statement (.extu64 p width) :=
  fun aw h => fits_of_place aw p _ _ (Bool.and_eq_true_iff.mp h).1

theorem exts8 (p : Place) (width : Nat) : Statement (.exts8 p width) :=
  fun aw h => fits_of_place aw p _ _ (Bool.and_eq_true_iff.mp h).1

theorem exts16 (p : Place) (width : Nat) : Statement (.exts16 p width) :=
  fun aw h => fits_of_place aw p _ _ (Bool.and_eq_true_iff.mp h).1

theorem exts32 (p : Place) (width : Nat) : Statement (.exts32 p width) :=
  fun aw h => fits_of_place aw p _ _ (Bool.and_eq_true_iff.mp h).1

theorem exts64 (p : Place) (width : Nat) : Statement (.exts64 p width) :=
  fun aw h => fits_of_place aw p _ _ (Bool.and_eq_true_iff.mp h).1

theorem ins8 (p : Place) (width : Nat) (value : Bus) : Statement (.ins8 p width value) :=
  fun aw h => fits_of_place aw p _ _ (Bool.and_eq_true_iff.mp h).1

theorem ins16 (p : Place) (width : Nat) (value : Bus) : Statement (.ins16 p width value) :=
  fun aw h => fits_of_place aw p _ _ (Bool.and_eq_true_iff.mp h).1

theorem ins32 (p : Place) (width : Nat) (value : Bus) : Statement (.ins32 p width value) :=
  fun aw h => fits_of_place aw p _ _ (Bool.and_eq_true_iff.mp h).1

theorem ins64 (p : Place) (width : Nat) (value : Bus) : Statement (.ins64 p width value) :=
  fun aw h => fits_of_place aw p _ _ (Bool.and_eq_true_iff.mp h).1

end Sys2Proof.Laws.WireFit
end

