-- ==== Sys2Proof/Tests/Slice0.lean ====
section
/-! SUPPORT. Small tests: ill-formed terms the checks refuse, control words written out from the spec's encodings, one step per
test with the result a vector of 95_test_vectors.md gives (its id is in the test's name), and a witness for the hypotheses of every
statement, at the ends of their ranges. -/

namespace Sys2Proof.Machine.Slice0Tests

open Sys2Proof Sys2Proof.Machine

/-! ## Helpers -/

/-- Bytes as the source memory, from an index on. -/
def cellsFrom (k : Nat) : List Byte → Memory
  | [] => []
  | b :: bs => (k, b) :: cellsFrom (k + 1) bs

/-- The state after reset with a storage of these bytes, lent mutably. -/
def lent (bs : List Byte) : State := { State.reset with mem := cellsFrom 0 bs }

/-- The same on an instance with ZERO_WIDTH_POLICY = NoOp. -/
def lentNoOp (bs : List Byte) : State := { lent bs with config := ⟨32, .noOp⟩ }

/-- The same with a record presented. -/
def presented (c : Command) (bs : List Byte) : State := { lent bs with hostCommands := [c] }

/-- The response and the bytes of a next state. -/
def answer : Host.Outcome State Fault Refusal → Option (Status × Bus × List Byte)
  | .next t => t.response.map fun r => (r.status, r.valueOut, t.mem.map Prod.snd)
  | .fault _ => none
  | .refused _ => none

/-- The refusal of a step. -/
def refusal : Host.Outcome State Fault Refusal → Option Refusal
  | .next _ => none
  | .fault _ => none
  | .refused r => some r

/-- One step on a record, SRC_LEN being the number of bytes. -/
def run (ctl : CtlWord) (startByte startBit : Nat) (valueIn : Bus) (bs : List Byte) : Option (Status × Bus × List Byte) :=
  answer (step (presented ⟨ctl, startByte, startBit, bs.length, valueIn⟩ bs))

/-- The five bytes of BITLAB's scenarios 3 and 5. -/
def hallo : List Byte := [0x48, 0x61, 0x6C, 0x6C, 0x6F]

/-- The nine bytes of the vectors EU8, ES17 and their neighbours. -/
def nine : List Byte := [0x81, 0x23, 0x45, 0x67, 0x89, 0xAB, 0xCD, 0xEF, 0x10]

/-! ## Well-formedness: one ill-formed term for each check -/

theorem test_wf_accepts_the_largest_operands :
    (Instr.ins64 ⟨2 ^ 32 - 1, 2 ^ 32 - 1, 2 ^ 32 - 1⟩ 127 (BitVec.allOnes 64)).wf 32 = true := by decide

theorem test_wf_refuses_wide_src_len : (Instr.test ⟨2 ^ 32, 0, 0⟩).wf 32 = false := by decide

theorem test_wf_refuses_wide_start_byte : (Instr.setb ⟨0, 2 ^ 32, 0⟩).wf 32 = false := by decide

theorem test_wf_refuses_wide_start_bit : (Instr.clrb ⟨0, 0, 2 ^ 32⟩).wf 32 = false := by decide

theorem test_wf_refuses_wide_width :
    (Instr.extu8 ⟨0, 0, 0⟩ 128).wf 32 = false ∧ (Instr.extu16 ⟨0, 0, 0⟩ 128).wf 32 = false ∧
      (Instr.extu32 ⟨0, 0, 0⟩ 128).wf 32 = false ∧ (Instr.extu64 ⟨0, 0, 0⟩ 128).wf 32 = false ∧
      (Instr.exts8 ⟨0, 0, 0⟩ 128).wf 32 = false ∧ (Instr.exts16 ⟨0, 0, 0⟩ 128).wf 32 = false ∧
      (Instr.exts32 ⟨0, 0, 0⟩ 128).wf 32 = false ∧ (Instr.exts64 ⟨0, 0, 0⟩ 128).wf 32 = false ∧
      (Instr.ins8 ⟨0, 0, 0⟩ 128 0).wf 32 = false ∧ (Instr.ins16 ⟨0, 0, 0⟩ 128 0).wf 32 = false ∧
      (Instr.ins32 ⟨0, 0, 0⟩ 128 0).wf 32 = false ∧ (Instr.ins64 ⟨0, 0, 0⟩ 128 0).wf 32 = false := by decide

theorem test_fits_refuses_each_wide_field :
    (⟨0x0041, 256, 0, 0, 0⟩ : Command).fits 8 = false ∧ (⟨0x0041, 0, 256, 0, 0⟩ : Command).fits 8 = false ∧
      (⟨0x0041, 0, 0, 256, 0⟩ : Command).fits 8 = false ∧ (⟨0x0041, 255, 255, 255, 0⟩ : Command).fits 8 = true := by decide

/-! ## Decoding: RSV WIDTH CAP OPC written out bit by bit (30_encoding.md R71, R76 and the worked encodings) -/

theorem test_decode_test : decodeTableWord 16 0b0000000001000001 = some (.test ⟨0, 0, 0⟩) := by decide

theorem test_decode_test_ignores_width_and_cap :
    decodeTableWord 16 0b0001111111110001 = some (.test ⟨0, 0, 0⟩) := by decide

theorem test_decode_setb : decodeTableWord 16 0b0000000001000010 = some (.setb ⟨0, 0, 0⟩) := by decide

theorem test_decode_clrb : decodeTableWord 16 0b0000000001000011 = some (.clrb ⟨0, 0, 0⟩) := by decide

theorem test_decode_extu8 : decodeTableWord 16 0b0000000011000100 = some (.extu8 ⟨0, 0, 0⟩ 3) := by decide

theorem test_decode_extu16 : decodeTableWord 16 0b0000000011010100 = some (.extu16 ⟨0, 0, 0⟩ 3) := by decide

theorem test_decode_extu32 : decodeTableWord 16 0b0000010001100100 = some (.extu32 ⟨0, 0, 0⟩ 17) := by decide

theorem test_decode_extu64 : decodeTableWord 16 0b0001000000110100 = some (.extu64 ⟨0, 0, 0⟩ 64) := by decide

theorem test_decode_exts8 : decodeTableWord 16 0b0000000011000101 = some (.exts8 ⟨0, 0, 0⟩ 3) := by decide

theorem test_decode_exts16 : decodeTableWord 16 0b0000001100010101 = some (.exts16 ⟨0, 0, 0⟩ 12) := by decide

theorem test_decode_exts32 : decodeTableWord 16 0b0000010001100101 = some (.exts32 ⟨0, 0, 0⟩ 17) := by decide

theorem test_decode_exts64 : decodeTableWord 16 0b0001000000110101 = some (.exts64 ⟨0, 0, 0⟩ 64) := by decide

theorem test_decode_ins8 : decodeTableWord 16 0b0000000010000110 = some (.ins8 ⟨0, 0, 0⟩ 2 0) := by decide

theorem test_decode_ins16 : decodeTableWord 16 0b0000010000010110 = some (.ins16 ⟨0, 0, 0⟩ 16 0) := by decide

theorem test_decode_ins32 : decodeTableWord 16 0b0001111111100110 = some (.ins32 ⟨0, 0, 0⟩ 127 0) := by decide

theorem test_decode_ins64 : decodeTableWord 16 0b0000000010110110 = some (.ins64 ⟨0, 0, 0⟩ 2 0) := by decide

theorem test_decode_rejects_unassigned :
    decodeTableWord 16 0x0000 = none ∧ decodeTableWord 16 0x0007 = none ∧ decodeTableWord 16 0x000F = none ∧
      decodeTableWord 16 0x0040 = none ∧ decodeTableWord 16 0x2041 = none ∧ decodeTableWord 16 0x8004 = none ∧
      decodeTableWord 16 0xE006 = none ∧ decodeTableWord 16 0xFFFF = none := by decide

theorem test_decode_operand_fields :
    decode ⟨0x00B6, 1, 15, 5, 3⟩ = .ok (.ins64 ⟨5, 1, 15⟩ 2 3) := by rfl

theorem test_encode_worked :
    encode (.extu16 ⟨5, 1, 7⟩ 3) = ⟨0x00D4, 1, 7, 5, 0⟩ ∧ encode (.ins64 ⟨5, 1, 15⟩ 2 3) = ⟨0x00B6, 1, 15, 5, 3⟩ := by decide

/-- No control word is selected by two rows: any two rows differ in a bit both of them match on. -/
theorem test_opcode_rows_do_not_overlap :
    opcodeTable.Pairwise fun r r' => (r.pattern ^^^ r'.pattern) &&& r.mask &&& r'.mask ≠ 0 := by decide

/-! ## Steps -/

theorem test_S2a_test : run 0x0041 0 0 0 [0x05] = some (.ok, 0, [0x05]) := by decide

theorem test_T4_test_start_bit_beyond_seven : run 0x0041 0 39 0 hallo = some (.ok, 1, hallo) := by decide

theorem test_SB5_setb : run 0x0042 2 3 0 hallo = some (.ok, 0, [0x48, 0x61, 0x7C, 0x6C, 0x6F]) := by decide

theorem test_SB3_setb_past_the_end : run 0x0042 0 8 0 [0x05] = some (.startOffsetTooBig, 0, [0x05]) := by decide

theorem test_SB7_clrb : run 0x0043 0 39 0 hallo = some (.ok, 0, [0x48, 0x61, 0x6C, 0x6C, 0x6E]) := by decide

theorem test_SB9_clrb_ignores_value : run 0x0043 0 0 0xFFFFFFFFFFFFFFFF [0xFF] = some (.ok, 0, [0x7F]) := by decide

theorem test_EU4_extu8 : run 0x0104 0 6 0 [0x12, 0x34] = some (.ok, 0x8, [0x12, 0x34]) := by decide

theorem test_EU17_extu8_capacity_before_end :
    run 0x0244 0 8 0 [0xDF, 0x00] = some (.numberOfBitsTooBigForOutputType, 0, [0xDF, 0x00]) := by decide

theorem test_EU5_extu16 : run 0x0314 0 4 0 hallo = some (.ok, 0x861, hallo) := by decide

theorem test_EU7_extu32 : run 0x0464 0 1 0 hallo = some (.ok, 0x12185, hallo) := by decide

theorem test_EU9_extu64 : run 0x1034 0 7 0 nine = some (.ok, 0x91A2B3C4D5E6F788, nine) := by decide

theorem test_S1b_exts8 : run 0x00C5 0 1 0 [0xDF] = some (.ok, 0xFD, [0xDF]) := by decide

theorem test_ES3_exts8_one_bit : run 0x0045 0 0 0 [0xDF] = some (.ok, 0xFF, [0xDF]) := by decide

theorem test_ES7_exts16 : run 0x00D5 1 7 0 hallo = some (.ok, 0xFFFD, hallo) := by decide

theorem test_ES13_exts32_zero_above_capacity : run 0x0425 0 0 0 [0x80, 0x00] = some (.ok, 0xFFFF8000, [0x80, 0x00]) := by decide

theorem test_ES11_exts32_positive : run 0x0465 0 0 0 hallo = some (.ok, 0x90C2, hallo) := by decide

theorem test_ES17_exts64 : run 0x1035 0 4 0 nine = some (.ok, 0x123456789ABCDEF1, nine) := by decide

theorem test_IN2_ins8 : run 0x0086 0 1 0xFC [0xFF] = some (.ok, 0, [0x9F]) := by decide

theorem test_IN8_ins16 : run 0x0416 0 4 0x1234 [0xAA, 0xBB, 0xCC] = some (.ok, 0, [0xA1, 0x23, 0x4C]) := by decide

theorem test_IN17_ins16_out_of_range :
    run 0x0416 0 12 0x1234 [0xAA, 0xBB, 0xCC] = some (.outOfRange, 0, [0xAA, 0xBB, 0xCC]) := by decide

theorem test_IN9_ins32 : run 0x0826 0 4 0xDEADBEEF hallo = some (.ok, 0, [0x4D, 0xEA, 0xDB, 0xEE, 0xFF]) := by decide

theorem test_S5_ins64 : run 0x00B6 1 15 3 hallo = some (.ok, 0, [0x48, 0x61, 0x6D, 0xEC, 0x6F]) := by decide

theorem test_IN14_ins64 :
    run 0x1036 0 3 0x8000000000000001 [0, 0, 0, 0, 0, 0, 0, 0, 0] =
      some (.ok, 0, [0x10, 0, 0, 0, 0, 0, 0, 0, 0x20]) := by decide

theorem test_Z1_zero_width :
    run 0x0006 0 3 0xFF [0xAA, 0xBB] = some (.zeroWidth, 0, [0xAA, 0xBB]) ∧
      answer (exec (.ins8 ⟨2, 0, 3⟩ 0 0xFF) (lentNoOp [0xAA, 0xBB])) = some (.ok, 0, [0xAA, 0xBB]) := by decide

theorem test_Xempty_unassigned_before_start : run 0x0000 0 0 0 [] = some (.illegalCommand, 0, []) := by decide

theorem test_Xw0_unassigned_before_zero_width : run 0x2006 0 99 0 [0xDF] = some (.illegalCommand, 0, [0xDF]) := by decide

/-- The walk's accesses, in order (20_memory.md R50): S5 reads and writes bytes 2 and 3. -/
theorem test_S5_accesses :
    (match exec (.ins64 ⟨5, 1, 15⟩ 2 3) (lent hallo) with
      | .next t => t.accesses
      | _ => []) = [.read 2, .write 2, .read 3, .write 3] := by decide

/-- A word placed as the next command is the next step's. -/
theorem test_withFetchWord_runs_next :
    answer (step (State.reset.withFetchWord 16 0x0041)) = some (.startOffsetTooBig, 0, []) := by decide

/-! ## Witnesses: for each statement with hypotheses, data that meet them, each clause at the ends of its range -/

theorem test_hyp_DecodingAnEncodedCommandGivesItBack :
    (Instr.exts64 ⟨2 ^ 32 - 1, 0, 2 ^ 32 - 1⟩ 127).wf 32 = true ∧ (Instr.ins8 ⟨0, 0, 0⟩ 0 0).wf 0 = true := by decide

theorem test_hyp_RecordAsOneNumberReadsBack :
    (⟨0xFFFF, 2 ^ 32 - 1, 2 ^ 32 - 1, 2 ^ 32 - 1, BitVec.allOnes 64⟩ : Command).fits 32 = true := by decide

theorem test_hyp_DecoderFollowsTheOpcodeTable :
    (∃ r ∈ opcodeTable, r.selects 0x1FF1 = true ∧ r.mnemonic = "TEST") ∧
      (∃ r ∈ opcodeTable, r.selects 0x1FF6 = true ∧ r.mnemonic = "INS.64") ∧
      (∀ r ∈ opcodeTable, r.selects 0x2001 = false) ∧ (∀ r ∈ opcodeTable, r.selects 0x0037 = false) := by decide

theorem test_hyp_IgnoredFieldsDoNotMatter :
    ctlRsv 0x0001 = ctlRsv 0x1FF1 ∧ ctlOpc 0x0001 = ctlOpc 0x1FF1 ∧ ctlOpc 0x0001 = 1 ∧
      ctlRsv 0x0003 = ctlRsv 0x1FF3 ∧ ctlOpc 0x0003 = ctlOpc 0x1FF3 ∧ ctlOpc 0x0003 = 3 ∧ ctlOpc 0x0005 ≠ 6 := by decide

theorem test_hyp_StepRunsTheDecodedCommand :
    ∃ (s : State) (c : Command) (i : Instr), s.hostCommands = c :: [c] ∧ c.fits s.config.aw = true ∧ decode c = .ok i :=
  ⟨{ lent hallo with hostCommands := [⟨0x00B6, 1, 15, 5, 3⟩, ⟨0x00B6, 1, 15, 5, 3⟩] }, ⟨0x00B6, 1, 15, 5, 3⟩, _, rfl, by decide, rfl⟩

theorem test_hyp_UnassignedControlWordAnswersIllegalCommand :
    (presented ⟨0xFFFF, 2 ^ 32 - 1, 0, 9, 0⟩ []).hostCommands = ⟨0xFFFF, 2 ^ 32 - 1, 0, 9, 0⟩ :: [] ∧
      (⟨0xFFFF, 2 ^ 32 - 1, 0, 9, 0⟩ : Command).fits (presented ⟨0xFFFF, 2 ^ 32 - 1, 0, 9, 0⟩ []).config.aw = true ∧
      (∀ r ∈ opcodeTable, r.selects 0xFFFF = false) ∧
      run 0xFFFF 0 1 3 [0xDF] = some (.illegalCommand, 0, [0xDF]) := by decide

theorem test_hyp_NoStepWithoutAPresentableCommand :
    State.reset.hostCommands = [] ∧ refusal (step State.reset) = some .noCommand ∧
      (⟨0x0041, 2 ^ 32, 0, 1, 0⟩ : Command).fits (lent [0]).config.aw = false ∧
      refusal (step (presented ⟨0x0041, 2 ^ 32, 0, 1, 0⟩ [0])) = some .operandTooWide := by decide

theorem test_hyp_EveryStepKeepsTheInvariant :
    ∃ s t : State, s.inv = true ∧ step s = .next t ∧ t.accesses.length = 18 :=
  ⟨presented ⟨0x1036, 0, 3, 9, 1⟩ nine, _, by decide, rfl, by decide⟩

theorem test_hyp_EveryStepKeepsParametersAndStorage : ∃ s t : State, step s = .next t ∧ t.mem ≠ s.mem :=
  ⟨presented ⟨0x0042, 0, 0, 1, 0⟩ [0], _, rfl, by decide⟩

/-- Each branch of the order of failures, and OK, at the value where it meets the next. -/
theorem test_hyp_StatusFollowsThePriorityOrder :
    (lent [0]).grants (.ins8 ⟨1, 0, 8⟩ 9 0) = true ∧
      run 0x0006 0 8 0 [0] = some (.zeroWidth, 0, [0]) ∧ run 0x0246 0 8 0 [0] = some (.startOffsetTooBig, 0, [0]) ∧
      run 0x0246 0 7 0 [0] = some (.numberOfBitsTooBigForOutputType, 0, [0]) ∧
      run 0x0206 0 1 0 [0] = some (.outOfRange, 0, [0]) ∧ run 0x0206 0 0 0 [0] = some (.ok, 0, [0]) ∧
      run 0x0046 0 7 1 [0] = some (.ok, 0, [1]) :=
  ⟨by decide, by decide, by decide, by decide, by decide, by decide, by decide⟩

theorem test_hyp_FailureChangesOnlyTheResponse :
    (∃ (i : Instr) (s t : State), exec i s = .next t ∧ t.status ≠ some .ok ∧ s.accesses ≠ []) ∧
      ∃ s t : State, step s = .next t ∧ t.status = some .illegalCommand :=
  ⟨⟨.ins8 ⟨1, 0, 8⟩ 1 0, { lent [7] with accesses := [.read 0] }, _, rfl, by decide, by decide⟩,
    ⟨presented ⟨0x0007, 0, 0, 1, 0⟩ [7], _, rfl, by decide⟩⟩

theorem test_hyp_EachCommandHasItsStatuses :
    run 0x0041 0 7 0 [1] = some (.ok, 1, [1]) ∧ run 0x0043 0 8 0 [1] = some (.startOffsetTooBig, 0, [1]) ∧
      run 0x0004 0 0 0 [1] = some (.zeroWidth, 0, [1]) ∧ run 0x0454 0 7 0 [1] = some (.numberOfBitsTooBigForOutputType, 0, [1]) ∧
      run 0x0084 0 7 0 [1] = some (.outOfRange, 0, [1]) := by decide

theorem test_hyp_EmptySourceFailsEveryCommand :
    (presented ⟨0x0042, 0, 0, 0, 0⟩ []).borrow = .mutably ∧ run 0x0042 0 0 0 [] = some (.startOffsetTooBig, 0, []) ∧
      run 0x0006 0 0 0 [] = some (.zeroWidth, 0, []) ∧ run 0x0000 0 0 0 [] = some (.illegalCommand, 0, []) ∧
      answer (step { presented ⟨0x0006, 0, 0, 0, 0⟩ [] with config := ⟨32, .noOp⟩ }) = some (.startOffsetTooBig, 0, []) := by decide

theorem test_hyp_AddressorAcceptsExactlyTheFieldsInside :
    validate .reject ⟨9, 0, 8⟩ 64 64 = .ok 8 ∧ validate .reject ⟨9, 1, 1⟩ 64 64 = .error .outOfRange ∧
      validate .reject ⟨2, 0, 12⟩ 17 16 = .error .numberOfBitsTooBigForOutputType ∧
      validate .noOp ⟨2, 2, 0⟩ 0 8 = .error .startOffsetTooBig ∧ validate .noOp ⟨2, 1, 7⟩ 0 8 = .ok 15 ∧
      (⟨9, 0, 8⟩ : Place).abs = (⟨9, 1, 0⟩ : Place).abs :=
  ⟨rfl, rfl, rfl, rfl, rfl, rfl⟩

theorem test_hyp_StartBitBeyondSevenNamesALaterByte :
    (⟨5, 0, 39⟩ : Place).abs = 8 * 4 + 7 ∧ answer (exec (withPlace ⟨5, 0, 39⟩ (.test ⟨5, 4, 7⟩)) (lent hallo)) = some (.ok, 1, hallo) := by
  decide

theorem test_hyp_UngrantedCommandIsRefused :
    refusal (exec (.extu8 ⟨2, 0, 0⟩ 1) (lent [0])) = some .srcLenBeyondStorage ∧
      refusal (exec (.setb ⟨1, 0, 0⟩) { lent [0] with borrow := .immutably }) = some .notLentMutably ∧
      answer (exec (.test ⟨1, 0, 0⟩) { lent [0] with borrow := .immutably }) = some (.ok, 0, [0]) := by decide

theorem test_hyp_ZeroWidthFollowsThePolicy :
    (lent [0]).grants (.exts64 ⟨1, 0, 0⟩ 0) = true ∧ (lent [0]).config.zeroWidthPolicy = .reject ∧
      (lentNoOp [0]).grants (.exts64 ⟨1, 0, 8⟩ 0) = true ∧ (lentNoOp [0]).config.zeroWidthPolicy = .noOp ∧
      (⟨1, 0, 8⟩ : Place).total = (⟨1, 0, 8⟩ : Place).abs ∧ (⟨1, 0, 7⟩ : Place).abs < (⟨1, 0, 7⟩ : Place).total ∧
      answer (exec (.exts64 ⟨1, 0, 8⟩ 0) (lentNoOp [0])) = some (.startOffsetTooBig, 0, [0]) ∧
      answer (exec (.exts64 ⟨1, 0, 7⟩ 0) (lentNoOp [0])) = some (.ok, 0, [0]) := by decide

theorem test_hyp_SpanHoldsOneToNineBytes : spanLen 0 1 = 1 ∧ spanLen 1 64 = 9 ∧ spanLen 7 64 = 9 ∧ spanLen 8 64 = 8 := by decide

/-- The parts of IN8's field (the trace of 95_test_vectors.md section 10): first, whole and last byte. -/
theorem test_hyp_SpanPartsMakeUpTheField :
    span 4 16 = [0, 1, 2] ∧ fieldLo 4 0 = 4 ∧ fieldHi 4 16 0 = 7 ∧ fieldLo 4 1 = 0 ∧ fieldHi 4 16 1 = 7 ∧ fieldLo 4 2 = 0 ∧
      fieldHi 4 16 2 = 3 ∧ (span 4 16).map (fieldBits 4 16) = [4, 8, 4] := by decide

theorem test_hyp_AccessesWalkTheSpanInOrder :
    (∃ t, exec (.extu64 ⟨9, 0, 1⟩ 64) (lent nine) = .next t ∧ t.status = some .ok) ∧
      (∃ t, exec (.setb ⟨9, 8, 7⟩) (lent nine) = .next t ∧ t.status = some .ok) ∧
      ∃ t, exec (.setb ⟨9, 9, 0⟩) (lent nine) = .next t ∧ t.status ≠ some .ok :=
  ⟨⟨_, rfl, by decide⟩, ⟨_, rfl, by decide⟩, ⟨_, rfl, by decide⟩⟩

theorem test_hyp_CommandsTouchOnlyTheSource :
    ∃ t, exec (.ins64 ⟨9, 0, 7⟩ 64 0) (lent nine) = .next t ∧ t.accesses.countP isWrite = 9 := ⟨_, rfl, by decide⟩

theorem test_hyp_ByteWalkComputesTheFieldValue :
    7 + 65 ≤ 8 * (lent nine).mem.size ∧ 72 + 0 ≤ 8 * (lent nine).mem.size ∧
      (lent hallo).mem.fieldValue 15 3 = some 5 := by decide

/-- For TestReturnsTheBit, SignedOneBitFieldIsMinusOneOrZero, SetbForcesTheBitToOne and ClrbForcesTheBitToZero: the first and the
last bit of the storage. -/
theorem test_hyp_single_bit_commands :
    (⟨5, 4, 7⟩ : Place).srcLen ≤ (lent hallo).mem.size ∧ (⟨5, 4, 7⟩ : Place).abs < (⟨5, 4, 7⟩ : Place).total ∧
      (⟨5, 0, 0⟩ : Place).abs < (⟨5, 0, 0⟩ : Place).total ∧ (lent hallo).borrow = .mutably ∧
      (lent hallo).mem.bit 39 = some true ∧ (lent hallo).mem.bit 0 = some false := by decide

/-- For ExtuReturnsTheFieldValue, ExtsReturnsTheSignExtendedField and InsWritesTheField: the full capacity ending at the storage's last bit, one bit, and width 0 under NoOp. -/
theorem test_hyp_field_commands :
    (⟨9, 1, 0⟩ : Place).srcLen ≤ (lent nine).mem.size ∧ (lent nine).borrow = .mutably ∧
      ((lent nine).config.zeroWidthPolicy = .reject → 1 ≤ 64) ∧ (⟨9, 1, 0⟩ : Place).abs < (⟨9, 1, 0⟩ : Place).total ∧
      (⟨9, 1, 0⟩ : Place).abs + 64 ≤ (⟨9, 1, 0⟩ : Place).total ∧ (⟨9, 8, 7⟩ : Place).abs + 1 ≤ (⟨9, 8, 7⟩ : Place).total ∧
      ((lentNoOp nine).config.zeroWidthPolicy = .reject → 1 ≤ 0) ∧ (⟨9, 8, 7⟩ : Place).abs + 0 ≤ (⟨9, 8, 7⟩ : Place).total := by
  decide

theorem test_hyp_SignedResultReadsAsANumber :
    (1 : Nat) ≤ capacityBits .cap8 ∧ (⟨1, 0, 1⟩ : Place).abs + 3 ≤ (⟨1, 0, 1⟩ : Place).total ∧
      (lent [0xDF]).mem.fieldValue 1 3 = some 5 ∧ (lent [0xDF]).mem.fieldValue 0 8 = some 0xDF ∧
      (lent [0xDF]).mem.fieldValue 2 1 = some 0 := by decide

theorem test_hyp_UnsignedAndSignedReadsAgree :
    8 ≤ capacityBits .cap8 ∧ 8 ≤ capacityBits .cap64 ∧ (⟨1, 0, 0⟩ : Place).abs + 8 ≤ (⟨1, 0, 0⟩ : Place).total ∧
      (lent [0x5F]).mem.bit 0 = some false := by decide

theorem test_hyp_ReadResultDependsOnlyOnTheFieldBits :
    (Instr.extu8 ⟨1, 0, 1⟩ 3).writes = false ∧
      (∀ k, k < 8 → 1 ≤ k → k < 1 + 3 → (lent [0xDF]).mem.bit k = (lent [0x50]).mem.bit k) ∧
      answer (exec (.extu8 ⟨1, 0, 1⟩ 3) (lent [0xDF])) = some (.ok, 5, [0xDF]) ∧
      answer (exec (.extu8 ⟨1, 0, 1⟩ 3) (lent [0x50])) = some (.ok, 5, [0x50]) := by decide

/-- For ReadCommandsChangeOnlyTheResponse, CommandsChangeOnlyTheFieldOfTheSource and WriteCommandsKeepEverythingElse. -/
theorem test_hyp_frames :
    (∃ t, (Instr.exts8 ⟨1, 0, 1⟩ 3).writes = false ∧ exec (.exts8 ⟨1, 0, 1⟩ 3) (lent [0xDF]) = .next t) ∧
      (∃ t, (Instr.clrb ⟨5, 0, 39⟩).writes = true ∧ exec (.clrb ⟨5, 0, 39⟩) (lent hallo) = .next t ∧ t.status = some .ok) ∧
      ∃ t, (Instr.ins16 ⟨3, 3, 0⟩ 16 0).writes = true ∧ exec (.ins16 ⟨3, 3, 0⟩ 16 0) (lent [1, 2, 3]) = .next t ∧
        t.status ≠ some .ok :=
  ⟨⟨_, rfl, rfl⟩, ⟨_, rfl, rfl, by decide⟩, ⟨_, rfl, rfl, by decide⟩⟩

theorem test_hyp_InsIgnoresTheBitsAboveTheWidth : ∀ k < 2, (0xFC : Bus).getLsbD k = (0x0 : Bus).getLsbD k := by decide

theorem test_hyp_WriteThenReadReturnsTheValue :
    (∃ t, exec (insOf .cap8 ⟨2, 0, 3⟩ 5 0xFD) (lent [0, 0]) = .next t ∧ t.status = some .ok ∧
        answer (exec (extsOf .cap8 ⟨2, 0, 3⟩ 5) t) = some (.ok, 0xFD, [0x1D, 0])) ∧
      (-(2 ^ (5 - 1)) ≤ (-16 : Int) ∧ (-16 : Int) < 2 ^ (5 - 1) ∧ (15 : Int) < 2 ^ (5 - 1)) ∧
      (∃ t, exec (.setb ⟨1, 0, 7⟩) (lent [0]) = .next t ∧ t.status = some .ok) ∧
      ∃ t, exec (.clrb ⟨1, 0, 0⟩) (lent [0xFF]) = .next t ∧ t.status = some .ok :=
  ⟨⟨_, rfl, by decide, by decide⟩, by decide, ⟨_, rfl, by decide⟩, ⟨_, rfl, by decide⟩⟩

theorem test_hyp_EffectIndependentOfEarlierCommands :
    ∃ s s' t : State, s.config = s'.config ∧ s.borrow = s'.borrow ∧ s.mem = s'.mem ∧ s ≠ s' ∧
      exec (.ins8 ⟨1, 0, 1⟩ 2 3) s = .next t :=
  ⟨lent [0], { lent [0] with response := some ⟨.outOfRange, 0⟩, accesses := [.read 0] }, _, rfl, rfl, rfl, by decide, rfl⟩

theorem test_hyp_FailingCommandFailsTheSameWayAgain :
    ∃ t, exec (.extu8 ⟨1, 0, 4⟩ 5) (lent [0xDF]) = .next t ∧ t.status ≠ some .ok := ⟨_, rfl, by decide⟩

theorem test_hyp_OverwideHostWidthFailsTheSameWay : 127 < 128 ∧ issuedWidth 128 = 127 ∧ issuedWidth 127 = 127 := by decide

/-! ## BITLAB's operations: its own scenarios (95_test_vectors.md section 1), and the witnesses of their statements -/

/-- What an operation returns, and the bytes of the storage after it. -/
def returned (op : HostOp) (v : Nat) (s : State) : Option (HostResult × List Byte) :=
  (runHostOp op v s).map fun r => (r.1, r.2.mem.map Prod.snd)

/-- Scenario 2 on the integer 5: false, 133, and 5 unchanged; the storage beside it is not touched. -/
theorem test_scenario2_single_bits :
    returned (.getBit (.single .bytes1 0)) 5 (lent [9]) = some (.boolean false, [9]) ∧
      returned (.setBit (.single .bytes1 0)) 5 (lent [9]) = some (.integer 133, [9]) ∧
      returned (.clearBit (.single .bytes1 0)) 5 (lent [9]) = some (.integer 5, [9]) := ⟨by decide, by decide, by decide⟩

/-- Scenario 1 read as unsigned, and section 4.2's example read as signed: 5 and the 8-bit pattern of -3. -/
theorem test_scenario1_get :
    returned (.getU .cap8 (.single .bytes1 1) 3) 0xDF (lent []) = some (.pattern .cap8 5, []) ∧
      returned (.getI .cap8 (.single .bytes1 1) 3) 0xDF (lent []) = some (.pattern .cap8 0xFD, []) := ⟨by decide, by decide⟩

/-- Scenarios 3 and 5 on the sequence: the value; the storage changed in place. -/
theorem test_scenarios3_5_sequence :
    returned (.getU .cap16 (.sequence 5 1 7) 3) 0 (lent hallo) = some (.pattern .cap16 5, hallo) ∧
      returned (.set none 5 1 15 2 3) 0 (lent hallo) = some (.changedInPlace, [0x48, 0x61, 0x6D, 0xEC, 0x6F]) :=
  ⟨by decide, by decide⟩

/-- Scenario 4: `set` of 3 in two bits at offset 1 of the byte 0. -/
theorem test_scenario4_set :
    returned (.setU .cap8 .bytes1 1 2 3) 0 (lent []) = some (.integer 0x60, []) := by decide

/-- Section 4.1's example: 10 bits into an 8-bit output. -/
theorem test_overwide_get :
    returned (.getU .cap8 (.single .bytes2 0) 10) 0xDF00 (lent []) =
      some (.failure .numberOfBitsTooBigForOutputType, []) := by decide

/-- For GetBitReturnsTheBoolean: the last bit of either shape, and the storage an operation on a copy needs (none). -/
theorem test_hyp_GetBitReturnsTheBoolean :
    (shapePlace (.single .bytes8 63)).srcLen ≤ ((lent []).bound (.single .bytes8 63) 1).mem.size ∧
      (shapePlace (.single .bytes8 63)).abs < (shapePlace (.single .bytes8 63)).total ∧
      (shapePlace (.sequence 5 0 39)).srcLen ≤ ((lent hallo).bound (.sequence 5 0 39) 0).mem.size ∧
      (shapePlace (.sequence 5 0 39)).abs < (shapePlace (.sequence 5 0 39)).total ∧
      returned (.getBit (.single .bytes8 63)) 1 (lent []) = some (.boolean true, []) :=
  ⟨by decide, by decide, by decide, by decide, by decide⟩

/-- For GetIntegersReturnTheField: the whole capacity, one bit set, and width 0 under NoOp. -/
theorem test_hyp_GetIntegersReturnTheField :
    (shapePlace (.single .bytes4 24)).srcLen ≤ ((lent []).bound (.single .bytes4 24) 0x80).mem.size ∧
      (shapePlace (.single .bytes4 24)).abs + 8 ≤ (shapePlace (.single .bytes4 24)).total ∧
      returned (.getI .cap16 (.single .bytes4 24) 8) 0x80 (lent []) = some (.pattern .cap16 0xFF80, []) ∧
      returned (.getI .cap64 (.single .bytes4 24) 1) 0x80 (lent []) = some (.pattern .cap64 0xFFFFFFFFFFFFFFFF, []) ∧
      returned (.getI .cap8 (.sequence 1 0 7) 0) 0 (lentNoOp [0xFF]) = some (.pattern .cap8 0, [0xFF]) :=
  ⟨by decide, by decide, by decide, by decide, by decide⟩

theorem test_hyp_GetOnSingleIntegerReadsItsBits :
    63 < 8 * intBytes .bytes8 ∧ 24 + 8 ≤ 8 * intBytes .bytes4 ∧ 8 ≤ capacityBits .cap8 ∧
      returned (.getU .cap8 (.single .bytes4 16) 8) 0x12345678 (lent []) = some (.pattern .cap8 0x56, []) :=
  ⟨by decide, by decide, by decide, by decide⟩

theorem test_hyp_SetOnSingleIntegerReturnsTheNewInteger :
    2 ≤ capacityBits .cap8 ∧ 14 + 2 ≤ 8 * intBytes .bytes2 ∧ 8 * intBytes .bytes2 ≤ 16 ∧
      returned (.setU .cap8 .bytes2 14 2 3) 0x4860 (lent [7]) = some (.integer 0x4863, [7]) ∧
      returned (.setU .cap8 .bytes2 16 2 3) 0x4860 (lent [7]) = some (.failure .startOffsetTooBig, [7]) :=
  ⟨by decide, by decide, by decide, by decide, by decide⟩

theorem test_hyp_BitOperationsReturnTheNewInteger :
    7 < 8 * intBytes .bytes1 ∧ returned (.clearBit (.single .bytes1 7)) 5 (lent []) = some (.integer 4, []) :=
  ⟨by decide, by decide⟩

theorem test_hyp_SequenceWritesChangeTheStorageInPlace :
    hostShape (.clearBit (.sequence 5 0 39)) = .sequence 5 0 39 ∧ (hostCommand (.clearBit (.sequence 5 0 39))).writes = true ∧
      ∃ t, exec (hostCommand (.clearBit (.sequence 5 0 39))) (lent hallo) = .next t ∧ t.status = some .ok :=
  ⟨rfl, rfl, _, rfl, by decide⟩

theorem test_hyp_FailedOperationReturnsTheFailureAlone :
    (∃ t, exec (hostCommand (.getBit (.single .bytes1 8))) ((lent []).bound (.single .bytes1 8) 5) = .next t ∧
        t.status = some .startOffsetTooBig) ∧
      ∃ t, exec (hostCommand (.set none 1 0 4 5 0)) ((lent [0]).bound (.sequence 1 0 4) 0) = .next t ∧
        t.status = some .outOfRange :=
  ⟨⟨_, rfl, by decide⟩, ⟨_, rfl, by decide⟩⟩

end Sys2Proof.Machine.Slice0Tests
end

section
/-! SUPPORT. The step by the host's next record, what a command keeps of the state and of its memory, and the record as one
number; with them the statements of 10_state.md are settled. -/

namespace Sys2Proof

/-! ## The record as one number (log 9) -/

/-- The record's layout with each field below the ones that follow it. -/
theorem Command.toBits_eq_nested (aw : Nat) (c : Command) :
    c.toBits aw = c.ctl.toNat +
      2 ^ 16 * (c.startByte + 2 ^ aw * (c.startBit + 2 ^ aw * (c.srcLen + 2 ^ aw * c.valueIn.toNat))) := by
  simp only [Command.toBits, Nat.pow_add, Nat.mul_comm _ aw, Nat.pow_mul]
  ring

/-- A field read back from the number it was laid out in, with what stands above it. -/
theorem add_mul_mod_and_div {x n : Nat} (y : Nat) (h : x < n) : (x + n * y) % n = x ∧ (x + n * y) / n = y := by
  rw [Nat.add_mul_mod_self_left, Nat.mod_eq_of_lt h, Nat.add_mul_div_left _ _ (by omega), Nat.div_eq_of_lt h, Nat.zero_add]
  exact ⟨rfl, rfl⟩

theorem Command.fits_iff {aw : Nat} {c : Command} :
    c.fits aw = true ↔ c.startByte < 2 ^ aw ∧ c.startBit < 2 ^ aw ∧ c.srcLen < 2 ^ aw := by
  simp [Command.fits, and_assoc]

/-- The fields of the record a number stands for, each below the ones that follow it. -/
theorem Command.ofBits_eq_nested (aw bits : Nat) :
    Command.ofBits aw bits =
      { ctl := BitVec.ofNat 16 (bits % 2 ^ 16)
        startByte := bits / 2 ^ 16 % 2 ^ aw
        startBit := bits / 2 ^ 16 / 2 ^ aw % 2 ^ aw
        srcLen := bits / 2 ^ 16 / 2 ^ aw / 2 ^ aw % 2 ^ aw
        valueIn := BitVec.ofNat 64 (bits / 2 ^ 16 / 2 ^ aw / 2 ^ aw / 2 ^ aw) } := by
  have h2 : 2 ^ (16 + 2 * aw) = 2 ^ 16 * 2 ^ aw * 2 ^ aw := by ring
  have h3 : 2 ^ (16 + 3 * aw) = 2 ^ 16 * 2 ^ aw * 2 ^ aw * 2 ^ aw := by ring
  have hctl : BitVec.ofNat 16 (bits % 2 ^ 16) = BitVec.ofNat 16 bits := BitVec.eq_of_toNat_eq (by simp)
  rw [Command.ofBits, h2, h3, Nat.pow_add, hctl]
  simp only [Nat.div_div_eq_div_mul]

theorem Command.ofBits_toBits {aw : Nat} {c : Command} (h : c.fits aw = true) : Command.ofBits aw (c.toBits aw) = c := by
  obtain ⟨hbyte, hbit, hlen⟩ := Command.fits_iff.mp h
  rw [Command.ofBits_eq_nested, Command.toBits_eq_nested]
  simp only [add_mul_mod_and_div _ c.ctl.isLt, add_mul_mod_and_div _ hbyte, add_mul_mod_and_div _ hbit,
    add_mul_mod_and_div _ hlen, BitVec.ofNat_toNat, BitVec.setWidth_eq]

end Sys2Proof

namespace Sys2Proof.Machine

/-- Settles O2: the fields are digits of the number, and each is read back at its place. -/
theorem recordAsOneNumberReadsBack : Obligations.RecordAsOneNumberReadsBack := by
  unfold Obligations.RecordAsOneNumberReadsBack
  exact fun _ _ h => Command.ofBits_toBits h

/-! ## The step by the host's next record (10_state.md R28) -/

theorem step_of_no_command {s : State} (h : s.hostCommands = []) : step s = .refused .noCommand := by
  simp only [step, runNext, State.nextCommand, h]

theorem step_of_next_command {s : State} {c : Command} {rest : List Command} (h : s.hostCommands = c :: rest) :
    step s = runCommand c (s.withHostCommands rest) := by
  simp only [step, runNext, State.nextCommand, h]

section
variable {s : State} {c : Command} {rest : List Command}

theorem step_of_not_fits (hc : s.hostCommands = c :: rest) (hf : c.fits s.config.aw = false) :
    step s = .refused .operandTooWide := by
  simp [step_of_next_command hc, runCommand, hf]

theorem step_of_decode_ok {i : Instr} (hc : s.hostCommands = c :: rest) (hf : c.fits s.config.aw = true)
    (hd : decode c = .ok i) : step s = exec i (s.withHostCommands rest) := by
  simp [step_of_next_command hc, runCommand, hf, hd]

theorem step_of_decode_error {why : DecodeError} (hc : s.hostCommands = c :: rest) (hf : c.fits s.config.aw = true)
    (hd : decode c = .error why) : step s = .next ((s.withHostCommands rest).raise .illegalCommand) := by
  simp [step_of_next_command hc, runCommand, hf, hd, illegalCommand]

end

/-- Everything a step can do when it answers a next state: it takes a record that fits, and raises IllegalCommand or runs the
command the record decodes to. -/
theorem step_next_cases {s t : State} (h : step s = .next t) :
    ∃ c rest, s.hostCommands = c :: rest ∧ c.fits s.config.aw = true ∧
      ((∃ why, decode c = .error why ∧ t = (s.withHostCommands rest).raise .illegalCommand) ∨
        ∃ i, decode c = .ok i ∧ exec i (s.withHostCommands rest) = .next t) := by
  cases hc : s.hostCommands with
  | nil => rw [step_of_no_command hc] at h; cases h
  | cons c rest =>
    cases hf : c.fits s.config.aw with
    | false => rw [step_of_not_fits hc hf] at h; cases h
    | true =>
      refine ⟨c, rest, rfl, hf, ?_⟩
      cases hd : decode c with
      | error why =>
        rw [step_of_decode_error hc hf hd, Host.Outcome.next.injEq] at h
        exact .inl ⟨why, rfl, h.symm⟩
      | ok i => exact .inr ⟨i, rfl, by rwa [step_of_decode_ok hc hf hd] at h⟩

/-- Settles O8, by the step's equation for a presented record. -/
theorem stepRunsTheDecodedCommand : Obligations.StepRunsTheDecodedCommand := by
  unfold Obligations.StepRunsTheDecodedCommand
  exact fun s c rest i hc hf hd => step_of_decode_ok hc hf hd

/-- Settles O10, by the step's equations for no record and for one that does not fit. -/
theorem noStepWithoutAPresentableCommand : Obligations.NoStepWithoutAPresentableCommand := by
  unfold Obligations.NoStepWithoutAPresentableCommand
  exact ⟨fun s => step_of_no_command, fun s c rest => step_of_not_fits⟩

/-! ## Reset (10_state.md R30) -/

/-- Settles O11: the fields of the reset state as they are defined. -/
theorem resetLeavesNoResponse : Obligations.ResetLeavesNoResponse := ⟨rfl, rfl, rfl, rfl⟩

/-- Settles O12: the empty memory is canonical, and there is no response and no access to check. -/
theorem invariantHoldsAtReset : Obligations.InvariantHoldsAtReset := by
  unfold Obligations.InvariantHoldsAtReset
  decide

/-! ## What a command keeps (10_state.md R29) -/

/-- No byte outside the span of a patched field changes. -/
theorem PatchedFrom.read_outside {abs width v : Nat} {m m' : Memory}
    (h : PatchedFrom abs width v (spanLen abs width) (firstByte abs) m m') {a : Nat}
    (ha : a < firstByte abs ∨ lastByte abs width < a) : m'.read a = m.read a := by
  rw [h.read a, if_neg]
  rcases Nat.eq_zero_or_pos width with rfl | hw
  · rw [spanLen_zero]; omega
  · have := firstByte_le_lastByte abs hw
    rw [spanLen_pos abs hw]; omega

/-- No bit outside a patched field changes. -/
theorem PatchedFrom.bit_outside {abs width v : Nat} {m m' : Memory}
    (h : PatchedFrom abs width v (spanLen abs width) (firstByte abs) m m') {k : Nat} (hk : k < abs ∨ abs + width ≤ k) :
    m'.bit k = m.bit k := by
  rcases Nat.eq_zero_or_pos width with rfl | hw
  · have hread : m'.read (k / 8) = m.read (k / 8) := by
      rw [h.read, if_neg (by rw [spanLen_zero]; omega)]
    rw [Memory.bit, Memory.bit, hread]
  · rw [h.bit hw, if_neg (by omega)]

/-- What a command does to the source: nothing, or, for a write command that ends OK, the patch of its field. -/
theorem exec_mem_cases {i : Instr} {s t : State} (h : exec i s = .next t) :
    t.mem = s.mem ∨ (i.writes = true ∧ t.status = some .ok ∧
      PatchedFrom i.place.abs i.width (truncValue i.width (valueOf i)) (spanLen i.place.abs i.width)
        (firstByte i.place.abs) s.mem t.mem) := by
  obtain ⟨-, ⟨status, -, -, rfl⟩ | ⟨-, -, u, -, rfl⟩ | ⟨-, hw, m', hm', rfl⟩⟩ := exec_next_cases h
  · exact .inl rfl
  · exact .inl rfl
  · exact .inr ⟨hw, rfl, hm'⟩

/-- A command keeps the parameters, the borrow and the commands to come. -/
theorem exec_keeps_host_side {i : Instr} {s t : State} (h : exec i s = .next t) :
    t.config = s.config ∧ t.borrow = s.borrow ∧ t.hostCommands = s.hostCommands := by
  obtain ⟨-, ⟨status, -, -, rfl⟩ | ⟨-, -, u, -, rfl⟩ | ⟨-, -, m', -, rfl⟩⟩ := exec_next_cases h <;>
    exact ⟨rfl, rfl, rfl⟩

/-- A command leaves a response; a write command's has VALUE_OUT = 0 (42_inject.md R161). -/
theorem exec_responds {i : Instr} {s t : State} (h : exec i s = .next t) :
    ∃ status value, t.response = some ⟨status, value⟩ ∧ (i.writes = true → value = 0) := by
  obtain ⟨-, ⟨status, -, -, rfl⟩ | ⟨-, hw, u, -, rfl⟩ | ⟨-, -, m', -, rfl⟩⟩ := exec_next_cases h
  · exact ⟨status, 0, rfl, fun _ => rfl⟩
  · exact ⟨.ok, resultOf i u, rfl, fun hw' => by simp [hw] at hw'⟩
  · exact ⟨.ok, 0, rfl, fun _ => rfl⟩

/-- A command keeps the listed indices and the byte count. -/
theorem exec_keeps_storage {i : Instr} {s t : State} (h : exec i s = .next t) :
    t.mem.map Prod.fst = s.mem.map Prod.fst ∧ t.mem.size = s.mem.size := by
  obtain hm | ⟨-, -, hm⟩ := exec_mem_cases h
  · rw [hm]; exact ⟨rfl, rfl⟩
  · exact ⟨hm.indices, hm.size⟩

theorem exec_mem_of_reads {i : Instr} {s t : State} (hw : i.writes = false) (h : exec i s = .next t) : t.mem = s.mem := by
  obtain hm | ⟨hw', -, -⟩ := exec_mem_cases h
  · exact hm
  · simp [hw] at hw'

theorem exec_mem_of_failure {i : Instr} {s t : State} (h : exec i s = .next t) (hf : t.status ≠ some .ok) :
    t.mem = s.mem := by
  obtain hm | ⟨-, hok, -⟩ := exec_mem_cases h
  · exact hm
  · exact absurd hok hf

theorem exec_bit_outside {i : Instr} {s t : State} (h : exec i s = .next t) {k : Nat}
    (hk : k < i.place.abs ∨ i.place.abs + i.width ≤ k) : t.mem.bit k = s.mem.bit k := by
  obtain hm | ⟨-, -, hm⟩ := exec_mem_cases h
  · rw [hm]
  · exact hm.bit_outside hk

theorem exec_read_outside {i : Instr} {s t : State} (h : exec i s = .next t) {a : Nat}
    (ha : a < firstByte i.place.abs ∨ lastByte i.place.abs i.width < a) : t.mem.read a = s.mem.read a := by
  obtain hm | ⟨-, -, hm⟩ := exec_mem_cases h
  · rw [hm]
  · exact hm.read_outside ha

/-- Settles O36: a read command leaves the memory, and every command the host's side. -/
theorem readCommandsChangeOnlyTheResponse : Obligations.ReadCommandsChangeOnlyTheResponse := by
  unfold Obligations.ReadCommandsChangeOnlyTheResponse
  intro i s t hw h
  have hm := exec_mem_of_reads hw h
  exact ⟨hm, fun a => by rw [hm], exec_keeps_host_side h⟩

/-- Settles O40: what a command does to the source is nothing, or the patch of its field. -/
theorem commandsChangeOnlyTheFieldOfTheSource : Obligations.CommandsChangeOnlyTheFieldOfTheSource := by
  unfold Obligations.CommandsChangeOnlyTheFieldOfTheSource
  exact fun i s t h =>
    ⟨fun hw => exec_mem_of_reads hw h, exec_mem_of_failure h, fun _ => exec_bit_outside h, fun _ => exec_read_outside h⟩

/-- Settles O41, from what every command keeps and the response of a write command. -/
theorem writeCommandsKeepEverythingElse : Obligations.WriteCommandsKeepEverythingElse := by
  unfold Obligations.WriteCommandsKeepEverythingElse
  intro i s t hw h
  obtain ⟨hconfig, hborrow, hcommands⟩ := exec_keeps_host_side h
  obtain ⟨status, value, hr, hvalue⟩ := exec_responds h
  obtain ⟨hindices, -⟩ := exec_keeps_storage h
  exact ⟨hconfig, hborrow, hcommands, hindices, fun _ => exec_read_outside h, status, by rw [hr, hvalue hw]⟩

/-- Settles O14: a step takes one record and raises IllegalCommand or runs a command, and both keep the rest. -/
theorem everyStepKeepsParametersAndStorage : Obligations.EveryStepKeepsParametersAndStorage := by
  unfold Obligations.EveryStepKeepsParametersAndStorage
  intro s t h
  obtain ⟨c, rest, hc, -, ⟨why, -, rfl⟩ | ⟨i, -, hi⟩⟩ := step_next_cases h
  · simp [hc]
  · obtain ⟨hconfig, hborrow, hcommands⟩ := exec_keeps_host_side hi
    obtain ⟨hindices, hsize⟩ := exec_keeps_storage hi
    obtain ⟨status, value, hr, -⟩ := exec_responds hi
    exact ⟨hconfig, hborrow, hindices, hsize, by rw [hcommands, hc]; rfl, by simp [hc], by simp [hr]⟩

/-! ## No state between commands (10_state.md R22, R24) -/

/-- `s` with the memory and the accesses of `t`: all that a transfer which ends in `t` has done. -/
def State.withTransfer (s t : State) : State := { s with mem := t.mem, accesses := t.accesses }

/-- The write walk sees only the memory, and changes only it and the accesses. -/
theorem injectWalk_withTransfer (abs width v n i : Nat) (s s' : State) :
    injectWalk abs width v n i (s'.withTransfer s) = (injectWalk abs width v n i s).map s'.withTransfer := by
  induction n generalizing i s with
  | zero => rfl
  | succ n ih =>
    cases hb : s.mem.read i with
    | none => simp [injectWalk, State.memRead, State.withTransfer, hb]
    | some b =>
      have hnext := ih (i + 1)
        (((s.logAccess (.read i)).withMem (s.mem.set i (patchByte abs width v i b))).logAccess (.write i))
      simpa [injectWalk, State.memRead, State.memWrite, State.withTransfer, State.logAccess, State.withMem, hb] using hnext

/-- A field written to the same memory in another state: the same memory and accesses. -/
theorem State.injectField_of_mem_eq {s s' t : State} {abs width v : Nat} (hm : s.mem = s'.mem)
    (h : s.injectField abs width v = some t) : s'.injectField abs width v = some (s'.withTransfer t) := by
  have hs' : s'.beginTransfer = s'.withTransfer s.beginTransfer := by
    simp [State.withTransfer, State.beginTransfer, hm]
  rw [State.injectField] at h ⊢
  rw [hs', injectWalk_withTransfer, h, Option.map_some]

/-- A granted write command with a valid request, as its transfer and its response. -/
theorem runWrite_next_iff {p : Place} {width cap a : Nat} {value : Bus} {s t : State} (hn : p.srcLen ≤ s.mem.size)
    (hb : s.borrow = .mutably) (hv : validate s.config.zeroWidthPolicy p width cap = .ok a) :
    runWrite p width cap value s = .next t ↔
      ∃ t₀, s.injectField a width (truncValue width value) = some t₀ ∧ t₀.respond 0 = t := by
  rw [runWrite, if_neg (Nat.not_lt.mpr hn), if_neg (by simp [hb]), hv]
  cases hinj : s.injectField a width (truncValue width value) <;> simp [hinj]

/-- Settles O45: a failure is the Addressor's, a field read is the memory's, and the write walk sees the memory alone. -/
theorem effectIndependentOfEarlierCommands : Obligations.EffectIndependentOfEarlierCommands := by
  unfold Obligations.EffectIndependentOfEarlierCommands
  intro i s s' t hconfig hborrow hmem h
  obtain ⟨hg, hcases⟩ := exec_next_cases h
  have hg' : s'.grants i = true := by rwa [State.grants, ← hmem, ← hborrow]
  obtain ⟨hn, hb⟩ := State.grants_iff.mp hg
  obtain ⟨hn', hb'⟩ := State.grants_iff.mp hg'
  obtain ⟨status, -, hv, rfl⟩ | ⟨hv, hw, u, hu, rfl⟩ | ⟨hv, hw, -⟩ := hcases
  · rw [exec_of_error hg' (hconfig ▸ hv)]
    simp [State.raise, hmem]
  · obtain ⟨u', hu', hrun⟩ := runRead_of_ok (result := resultOf i) hn' (hconfig ▸ hv)
    obtain rfl : u = u' := Option.some.inj (hu.symm.trans (hmem ▸ hu'))
    rw [exec_of_reads hw, hrun, hmem]
  · rw [exec_of_writes hw] at h ⊢
    obtain ⟨t₀, ht₀, rfl⟩ := (runWrite_next_iff hn (hb hw) hv).mp h
    exact (runWrite_next_iff hn' (hb' hw) (hconfig ▸ hv)).mpr ⟨_, State.injectField_of_mem_eq hmem ht₀, rfl⟩

end Sys2Proof.Machine
end

section
/-! SUPPORT. The length of a span, the accesses of a command and their bounds, the invariant of the step, and a single integer as a
source; with them the statements of 20_memory.md are settled. -/

namespace Sys2Proof

/-! ## The length of a span (20_memory.md R49) -/

theorem spanLen_eq_div (abs : Nat) {width : Nat} (h : 0 < width) : spanLen abs width = (abs % 8 + width + 7) / 8 := by
  rw [spanLen_pos abs h, firstByte, lastByte]
  omega

theorem spanLen_le_nine (abs : Nat) {width : Nat} (h : width ≤ 64) : spanLen abs width ≤ 9 := by
  rcases Nat.eq_zero_or_pos width with rfl | hw
  · rw [spanLen_zero]; omega
  · rw [spanLen_eq_div abs hw]; omega

theorem length_span (abs width : Nat) : (span abs width).length = spanLen abs width := List.length_range'

theorem Instr.capacity_le (i : Instr) : i.capacity ≤ 64 := by
  cases i <;> simp [Instr.capacity]

end Sys2Proof

namespace Sys2Proof.Machine

/-- Settles O24: the closed form of the length, which width 1 to 64 and `abs mod 8` bound. -/
theorem spanHoldsOneToNineBytes : Obligations.SpanHoldsOneToNineBytes := by
  unfold Obligations.SpanHoldsOneToNineBytes
  intro abs width h1 h64
  have hlen := spanLen_eq_div abs h1
  exact ⟨spanLen_pos abs h1, hlen, by omega, spanLen_le_nine abs h64⟩

/-! ## Commands the host has not granted (70_reset_and_hazards.md R231) -/

theorem exec_of_srcLen_beyond {i : Instr} {s : State} (h : s.mem.size < i.place.srcLen) :
    exec i s = .refused .srcLenBeyondStorage := by
  cases hw : i.writes
  · rw [exec_of_reads hw, runRead, if_pos h]
  · rw [exec_of_writes hw, runWrite, if_pos h]

theorem exec_of_lent_immutably {i : Instr} {s : State} (hn : i.place.srcLen ≤ s.mem.size) (hw : i.writes = true)
    (hb : s.borrow = .immutably) : exec i s = .refused .notLentMutably := by
  rw [exec_of_writes hw, runWrite, if_neg (Nat.not_lt.mpr hn), if_pos hb]

/-- Settles O21, by the two refusals of a command. -/
theorem ungrantedCommandIsRefused : Obligations.UngrantedCommandIsRefused := by
  unfold Obligations.UngrantedCommandIsRefused
  exact ⟨fun _ _ => exec_of_srcLen_beyond, fun _ _ => exec_of_lent_immutably⟩

/-! ## The accesses of a span (20_memory.md R50) -/

theorem accessIndex_mem_span_of_read {abs width : Nat} {a : MemAccess} (h : a ∈ readAccesses abs width) :
    accessIndex a ∈ span abs width := by
  obtain ⟨j, hj, rfl⟩ := List.mem_map.mp h
  exact hj

theorem accessIndex_mem_span_of_write {abs width : Nat} {a : MemAccess} (h : a ∈ writeAccesses abs width) :
    accessIndex a ∈ span abs width := by
  obtain ⟨j, hj, ha⟩ := List.mem_flatMap.mp h
  obtain rfl | rfl : a = .read j ∨ a = .write j := by simpa using ha
  · exact hj
  · exact hj

@[simp] theorem countP_isWrite_readAccesses (abs width : Nat) : (readAccesses abs width).countP isWrite = 0 := by
  simp [readAccesses, List.countP_map, Function.comp_def, isWrite]

@[simp] theorem countP_isRead_readAccesses (abs width : Nat) :
    (readAccesses abs width).countP (fun a => !isWrite a) = spanLen abs width := by
  simp [readAccesses, List.countP_map, Function.comp_def, isWrite, length_span]

@[simp] theorem countP_isWrite_writeAccesses (abs width : Nat) :
    (writeAccesses abs width).countP isWrite = spanLen abs width := by
  simp [writeAccesses, List.countP_flatMap, Function.comp_def, isWrite, length_span]

@[simp] theorem countP_isRead_writeAccesses (abs width : Nat) :
    (writeAccesses abs width).countP (fun a => !isWrite a) = spanLen abs width := by
  simp [writeAccesses, List.countP_flatMap, Function.comp_def, isWrite, length_span]

/-! ## The accesses of a command -/

/-- What a command issues: nothing where it fails; where it ends OK, the reads, or the reads and writes, of the span of a field
inside its source. -/
theorem exec_accesses_cases {i : Instr} {s t : State} (h : exec i s = .next t) :
    (t.status ≠ some .ok ∧ t.accesses = []) ∨
      (t.status = some .ok ∧ i.place.abs + i.width ≤ i.place.total ∧ i.width ≤ 64 ∧
        ((i.writes = false ∧ t.accesses = readAccesses i.place.abs i.width) ∨
          (i.writes = true ∧ t.accesses = writeAccesses i.place.abs i.width))) := by
  have hcap := i.capacity_le
  obtain ⟨-, ⟨status, hne, -, rfl⟩ | ⟨hv, hw, u, -, rfl⟩ | ⟨hv, hw, m', -, rfl⟩⟩ := exec_next_cases h
  · exact .inl ⟨by simpa [State.status] using hne, rfl⟩
  · obtain ⟨-, -, -, hwidth, hend⟩ := validate_ok_iff.mp hv
    exact .inr ⟨rfl, hend, by omega, .inl ⟨hw, rfl⟩⟩
  · obtain ⟨-, -, -, hwidth, hend⟩ := validate_ok_iff.mp hv
    exact .inr ⟨rfl, hend, by omega, .inr ⟨hw, rfl⟩⟩

/-- Settles O26, by what a command issues. -/
theorem accessesWalkTheSpanInOrder : Obligations.AccessesWalkTheSpanInOrder := by
  unfold Obligations.AccessesWalkTheSpanInOrder
  intro i s t h
  obtain ⟨hf, ha⟩ | ⟨hok, -, -, ⟨hw, ha⟩ | ⟨hw, ha⟩⟩ := exec_accesses_cases h
  · exact ⟨fun hok => absurd hok hf, fun hok => absurd hok hf, fun _ => ha⟩
  · exact ⟨fun _ _ => ha, fun _ hw' => by simp [hw] at hw', fun hf => absurd hok hf⟩
  · exact ⟨fun _ hw' => by simp [hw] at hw', fun _ _ => ha, fun hf => absurd hok hf⟩

/-- Settles O27: the span of a field inside the source holds only the source's bytes, at most nine of them. -/
theorem commandsTouchOnlyTheSource : Obligations.CommandsTouchOnlyTheSource := by
  unfold Obligations.CommandsTouchOnlyTheSource
  intro i s t h
  obtain ⟨-, ha⟩ | ⟨-, hend, h64, ⟨hw, ha⟩ | ⟨hw, ha⟩⟩ := exec_accesses_cases h
  · simp [ha]
  · have h9 := spanLen_le_nine i.place.abs h64
    rw [ha]
    exact ⟨fun a h => mem_span_lt hend (accessIndex_mem_span_of_read h), by simpa using h9, by simp, fun _ => by simp⟩
  · have h9 := spanLen_le_nine i.place.abs h64
    rw [ha]
    exact ⟨fun a h => mem_span_lt hend (accessIndex_mem_span_of_write h), by simpa using h9, by simpa using h9,
      fun hw' => by simp [hw] at hw'⟩

/-! ## The invariant of the step -/

theorem State.inv_iff {s : State} :
    s.inv = true ↔ s.mem.wf = true ∧ s.responseOk = true ∧ s.accessesOk = true := by
  simp [State.inv, and_assoc]

theorem State.accessesOk_iff {s : State} :
    s.accessesOk = true ↔ (∀ a ∈ s.accesses, accessIndex a < s.mem.size) ∧ s.accesses.countP isWrite ≤ 9 ∧
      s.accesses.countP (fun a => !isWrite a) ≤ 9 := by
  simp [State.accessesOk, and_assoc]

/-- A raised failure meets the invariant wherever the memory is canonical. -/
theorem State.inv_raise {s : State} (h : s.mem.wf = true) (status : Status) : (s.raise status).inv = true := by
  simp [State.inv_iff, State.accessesOk_iff, State.responseOk, h]

/-- A command keeps the canonical form, which the listed indices alone decide. -/
theorem exec_keeps_wf {i : Instr} {s t : State} (h : exec i s = .next t) : t.mem.wf = s.mem.wf := by
  rw [Bool.eq_iff_iff, Memory.wf_iff, Memory.wf_iff, (exec_keeps_storage h).1]

/-- A command that fails responds VALUE_OUT = 0 and has issued no access (60_exceptions.md R203). -/
theorem exec_responseOk {i : Instr} {s t : State} (h : exec i s = .next t) : t.responseOk = true := by
  obtain ⟨-, ⟨status, -, -, rfl⟩ | ⟨-, -, u, -, rfl⟩ | ⟨-, -, m', -, rfl⟩⟩ := exec_next_cases h <;>
    simp [State.responseOk]

/-- A command's accesses are below its SRC_LEN, which the storage it was granted on has. -/
theorem exec_accessesOk {i : Instr} {s t : State} (h : exec i s = .next t) : t.accessesOk = true := by
  obtain ⟨hindex, hreads, hwrites, -⟩ := commandsTouchOnlyTheSource i s t h
  obtain ⟨hn, -⟩ := State.grants_iff.mp (grants_of_exec_next h)
  obtain ⟨-, hsize⟩ := exec_keeps_storage h
  exact State.accessesOk_iff.mpr ⟨fun a ha => by have := hindex a ha; omega, hwrites, hreads⟩

/-- Settles O13: a step raises IllegalCommand or runs a command, and either leaves the invariant from a canonical memory. -/
theorem everyStepKeepsTheInvariant : Obligations.EveryStepKeepsTheInvariant := by
  unfold Obligations.EveryStepKeepsTheInvariant
  intro s t hs h
  obtain ⟨hwf, -, -⟩ := State.inv_iff.mp hs
  obtain ⟨c, rest, -, -, ⟨why, -, rfl⟩ | ⟨i, -, hi⟩⟩ := step_next_cases h
  · exact State.inv_raise (by simpa using hwf) _
  · exact State.inv_iff.mpr ⟨by rw [exec_keeps_wf hi]; exact hwf, exec_responseOk hi, exec_accessesOk hi⟩

/-! ## A single integer as a source (20_memory.md R46) -/

/-- The bytes `f k, f (k + 1), ...` at consecutive indices from `k`, as a source: all of them count. -/
theorem Memory.sizeFrom_consecutive (f : Nat → Byte) (k n : Nat) :
    Memory.sizeFrom k ((List.range' k n).map fun i => (i, f i)) = k + n := by
  induction n generalizing k with
  | zero => rfl
  | succ n ih =>
    rw [List.range'_succ, List.map_cons, Memory.sizeFrom, if_pos rfl, ih]
    omega

theorem Memory.read_consecutive (f : Nat → Byte) {k n i : Nat} (hk : k ≤ i) (hi : i < k + n) :
    Memory.read ((List.range' k n).map fun i => (i, f i)) i = some (f i) := by
  induction n generalizing k with
  | zero => omega
  | succ n ih =>
    rw [List.range'_succ, List.map_cons, Memory.read_cons]
    by_cases h : k = i
    · rw [if_pos h, h]
    · rw [if_neg h, ih (by omega) (by omega)]

@[simp] theorem presentInteger_size (n v : Nat) : (presentInteger n v).size = n := by
  rw [presentInteger, List.range_eq_range', Memory.size, Memory.sizeFrom_consecutive, Nat.zero_add]

theorem presentInteger_read {n i : Nat} (v : Nat) (h : i < n) :
    (presentInteger n v).read i = some (BitVec.ofNat 8 (v >>> (8 * (n - i - 1)))) := by
  rw [presentInteger, List.range_eq_range', Memory.read_consecutive _ (Nat.zero_le i) (by omega),
    Nat.shiftRight_eq_div_pow, Nat.sub_right_comm]

theorem presentInteger_bit {n k : Nat} (v : Nat) (h : k < 8 * n) :
    (presentInteger n v).bit k = some (v.testBit (8 * n - 1 - k)) := by
  have hbyte : 7 - k % 8 < 8 := by omega
  have hpos : 8 * (n - k / 8 - 1) + (7 - k % 8) = 8 * n - 1 - k := by omega
  rw [Memory.bit, presentInteger_read v (by omega), Option.map_some, bitAt, BitVec.getLsbD_ofNat, Nat.testBit_shiftRight,
    hpos]
  simp [hbyte]

/-- Settles O47, by the size, the bytes and the bits of a presented integer. -/
theorem singleIntegerIsBigEndian : Obligations.SingleIntegerIsBigEndian := by
  unfold Obligations.SingleIntegerIsBigEndian
  exact fun n v => ⟨presentInteger_size n v, fun _ => presentInteger_read v, fun _ => presentInteger_bit v⟩

end Sys2Proof.Machine
end

section
/-! SUPPORT. The wire fields of each command and its row of the opcode table, the decoder's answer said once, and a record that
carries a command; with them the statements of 30_encoding.md are settled. -/

namespace Sys2Proof

/-! ## The fields a command's control word holds (30_encoding.md R72, R73) -/

/-- `OPC`, the operation of a command (30_encoding.md R72). -/
def Instr.opc : Instr → Nat
  | .test _ => 1
  | .setb _ => 2
  | .clrb _ => 3
  | .extu8 _ _ | .extu16 _ _ | .extu32 _ _ | .extu64 _ _ => 4
  | .exts8 _ _ | .exts16 _ _ | .exts32 _ _ | .exts64 _ _ => 5
  | .ins8 _ _ _ | .ins16 _ _ _ | .ins32 _ _ _ | .ins64 _ _ _ => 6

/-- `CAP`, the selector of a command's capacity (30_encoding.md R73); 00 for the single-bit commands (R78). -/
def Instr.capsel (i : Instr) : Nat :=
  match i.capacity with
  | 16 => 1
  | 32 => 2
  | 64 => 3
  | _ => 0

theorem Instr.opc_pos (i : Instr) : 1 ≤ i.opc := by cases i <;> simp [Instr.opc]

theorem Instr.opc_le (i : Instr) : i.opc ≤ 6 := by cases i <;> simp [Instr.opc]

theorem Instr.capsel_lt (i : Instr) : i.capsel < 4 := by cases i <;> simp [Instr.capsel, Instr.capacity]

theorem Instr.capsel_of_singleBit {i : Instr} (h : i.opc ≤ 3) : i.capsel = 0 := by
  cases i <;> simp_all [Instr.opc, Instr.capsel, Instr.capacity]

theorem Instr.width_of_singleBit {i : Instr} (h : i.opc ≤ 3) : i.width = 1 := by
  cases i <;> simp_all [Instr.opc, Instr.width]

theorem Instr.width_lt_of_wf {aw : Nat} {i : Instr} (h : i.wf aw = true) : i.width < 128 := by
  cases i <;> simp_all [Instr.wf, Instr.width, widthFits]

/-- The encoder, once for all commands: the control word of the command's fields, and VALUE_IN for INS alone. -/
theorem encode_eq (i : Instr) :
    encode i = .of (ctlOf i.opc i.capsel i.width) i.place (if i.opc = 6 then Machine.valueOf i else 0) := by
  cases i <;> rfl

/-! ## A record that carries a command -/

/-- The record's fields are the command's, apart from those the command ignores (30_encoding.md R77, R78). -/
structure Command.Carries (c : Command) (i : Instr) : Prop where
  rsv : ctlRsv c.ctl = 0
  opc : ctlOpc c.ctl = i.opc
  place : c.place = i.place
  cap : 4 ≤ i.opc → ctlCap c.ctl = i.capsel
  width : 4 ≤ i.opc → ctlWidth c.ctl = i.width
  value : i.opc = 6 → c.valueIn = Machine.valueOf i

/-- A record with a command's operands and the control word assembled of its fields carries it. -/
theorem Command.Carries.of_ctlOf {c : Command} {i : Instr} (hctl : c.ctl = ctlOf i.opc i.capsel i.width)
    (hw : i.width < 128) (hp : c.place = i.place) (hv : i.opc = 6 → c.valueIn = Machine.valueOf i) : c.Carries i := by
  have hopc : i.opc < 16 := by have := i.opc_le; omega
  obtain ⟨ho, hc, hwidth, hr⟩ := fields_ctlOf hopc i.capsel_lt hw
  exact ⟨hctl ▸ hr, hctl ▸ ho, hp, fun _ => hctl ▸ hc, fun _ => hctl ▸ hwidth, hv⟩

/-- The record a command is encoded as carries it. -/
theorem encode_carries {aw : Nat} {i : Instr} (h : i.wf aw = true) : (encode i).Carries i := by
  rw [encode_eq]
  exact .of_ctlOf rfl (Instr.width_lt_of_wf h) rfl fun h6 => if_pos h6

/-! ## What the decoder answers (30_encoding.md R77) -/

/-- Everything the decoder can answer, with the control words for which it answers it. -/
theorem decode_cases (c : Command) :
    (ctlRsv c.ctl ≠ 0 ∧ decode c = .error .reservedBits) ∨
      (ctlRsv c.ctl = 0 ∧ (ctlOpc c.ctl = 0 ∨ 7 ≤ ctlOpc c.ctl) ∧ decode c = .error .unassignedOperation) ∨
      ∃ i, c.Carries i ∧ decode c = .ok i := by
  by_cases hr : ctlRsv c.ctl = 0
  · refine .inr ?_
    have hcap := ctlCap_lt c.ctl
    rw [decode, if_neg (not_not_intro hr)]
    split
    case h_16 => exact .inl ⟨hr, by grind, rfl⟩
    all_goals
      refine .inr ⟨_, ⟨hr, ‹_›, rfl, ?_, ?_, ?_⟩, rfl⟩
      · simp only [imp_false, Instr.opc, Instr.capsel, Instr.capacity] at *
        omega
      · simp [Instr.opc, Instr.width]
      · simp [Instr.opc, Machine.valueOf]
  · exact .inl ⟨hr, by rw [decode, if_pos hr]⟩

/-- A record decodes to the command it carries. -/
theorem Command.Carries.decode_eq {c : Command} {i : Instr} (h : c.Carries i) : decode c = .ok i := by
  obtain ⟨hr, ho, hp, hc, hw, hv⟩ := h
  cases i <;>
    simp_all [decode, Instr.opc, Instr.capsel, Instr.capacity, Instr.place, Instr.width, Machine.valueOf]

theorem decode_eq_ok_iff {c : Command} {i : Instr} : decode c = .ok i ↔ c.Carries i := by
  refine ⟨fun h => ?_, Command.Carries.decode_eq⟩
  obtain ⟨-, hd⟩ | ⟨-, -, hd⟩ | ⟨j, hj, hd⟩ := decode_cases c
  · rw [hd] at h; cases h
  · rw [hd] at h; cases h
  · rw [hd] at h; cases h; exact hj

/-- The decoder rejects exactly the words whose reserved bits or operation are unassigned (30_encoding.md R79). -/
theorem decode_error_iff (c : Command) :
    (∃ e, decode c = .error e) ↔ ctlRsv c.ctl ≠ 0 ∨ ctlOpc c.ctl = 0 ∨ 7 ≤ ctlOpc c.ctl := by
  obtain ⟨hr, hd⟩ | ⟨-, ho, hd⟩ | ⟨i, hi, hd⟩ := decode_cases c
  · exact iff_of_true ⟨_, hd⟩ (.inl hr)
  · exact iff_of_true ⟨_, hd⟩ (.inr ho)
  · refine iff_of_false (by rintro ⟨e, he⟩; rw [hd] at he; cases he) ?_
    have := i.opc_pos
    have := i.opc_le
    rw [hi.rsv, hi.opc]
    omega

/-- Two records with the same reserved bits that carry the same commands decode alike, whether to a command or to an error. -/
theorem decode_congr {c c' : Command} (hr : ctlRsv c.ctl = ctlRsv c'.ctl) (h : ∀ i, c.Carries i ↔ c'.Carries i) :
    decode c = decode c' := by
  obtain ⟨hr₁, hd⟩ | ⟨hr₁, -, hd⟩ | ⟨i, hi, hd⟩ := decode_cases c
  · obtain ⟨-, hd'⟩ | ⟨hr₂, -, -⟩ | ⟨i, hi, -⟩ := decode_cases c'
    · rw [hd, hd']
    · exact absurd (hr.trans hr₂) hr₁
    · exact absurd (hr.trans hi.rsv) hr₁
  · obtain ⟨hr₂, -⟩ | ⟨-, -, hd'⟩ | ⟨i, hi, -⟩ := decode_cases c'
    · exact absurd (hr.symm.trans hr₁) hr₂
    · rw [hd, hd']
    · rw [((h i).mpr hi).decode_eq] at hd; cases hd
  · rw [hd, ((h i).mp hi).decode_eq]

/-! ## The row of a command in the opcode table (30_encoding.md R76) -/

/-- The row of a command, its match and mask by the command's fields; the single-bit rows do not compare `CAP`. -/
def Instr.row (i : Instr) : OpcodeRow where
  mnemonic := i.mnemonic
  pattern := BitVec.ofNat 16 (16 * i.capsel + i.opc)
  mask := if i.opc ≤ 3 then 0xE00F else 0xE03F

theorem Instr.row_mem (i : Instr) : i.row ∈ opcodeTable := by
  cases i <;> simp [Instr.row, Instr.mnemonic, Instr.opc, Instr.capsel, Instr.capacity, opcodeTable]

theorem OpcodeRow.selects_iff {r : OpcodeRow} {ctl : CtlWord} : r.selects ctl = true ↔ ctl &&& r.mask = r.pattern :=
  beq_iff_eq

/-- The row of a command selects every control word that carries it. -/
theorem Command.Carries.row_selects {c : Command} {i : Instr} (h : c.Carries i) : i.row.selects c.ctl = true := by
  have hpattern : (16 * i.capsel + i.opc) % 2 ^ 16 = 16 * i.capsel + i.opc := by
    have := i.opc_le
    have := i.capsel_lt
    omega
  rw [OpcodeRow.selects_iff, ← BitVec.toNat_inj, Instr.row, BitVec.toNat_ofNat, hpattern]
  split
  · next h3 => rw [singleBitMask_eq, h.rsv, h.opc, Instr.capsel_of_singleBit h3]
  · next h3 => rw [fieldMask_eq, h.rsv, h.opc, h.cap (by omega)]; omega

/-- Every row compares the reserved bits and the operation, and matches on 000 and on an assigned operation. -/
theorem opcodeTable_assigned : ∀ r ∈ opcodeTable, r.mask &&& 0xE00F = 0xE00F ∧
    1 ≤ (r.pattern &&& 0xE00F).toNat ∧ (r.pattern &&& 0xE00F).toNat ≤ 6 := by decide

/-- A word that a row of the table selects is assigned. -/
theorem assigned_of_selects {r : OpcodeRow} {ctl : CtlWord} (hr : r ∈ opcodeTable) (h : r.selects ctl = true) :
    ctlRsv ctl = 0 ∧ 1 ≤ ctlOpc ctl ∧ ctlOpc ctl ≤ 6 := by
  obtain ⟨hmask, hlo, hhi⟩ := opcodeTable_assigned r hr
  rw [← OpcodeRow.selects_iff.mp h, BitVec.and_assoc, hmask, singleBitMask_eq] at hlo hhi
  omega

/-- Two rows of the table that match alike on every bit both compare are the same row. -/
theorem opcodeTable_rows_distinct : ∀ r ∈ opcodeTable, ∀ r' ∈ opcodeTable,
    r.pattern &&& r'.mask = r'.pattern &&& r.mask → r = r' := by decide

/-- No control word is in two rows. -/
theorem row_eq_of_selects {r r' : OpcodeRow} {ctl : CtlWord} (hr : r ∈ opcodeTable) (hr' : r' ∈ opcodeTable)
    (h : r.selects ctl = true) (h' : r'.selects ctl = true) : r = r' := by
  refine opcodeTable_rows_distinct r hr r' hr' ?_
  rw [← OpcodeRow.selects_iff.mp h, ← OpcodeRow.selects_iff.mp h', BitVec.and_assoc, BitVec.and_assoc,
    BitVec.and_comm r.mask]

/-- A word that a row selects decodes to a command of that row. -/
theorem decode_of_selects {c : Command} {r : OpcodeRow} (hr : r ∈ opcodeTable) (h : r.selects c.ctl = true) :
    ∃ i, decode c = .ok i ∧ i.row = r := by
  cases hd : decode c with
  | error e =>
    have hassigned := assigned_of_selects hr h
    have hrejected := (decode_error_iff c).mp ⟨e, hd⟩
    omega
  | ok i =>
    exact ⟨i, rfl, row_eq_of_selects i.row_mem hr (decode_eq_ok_iff.mp hd).row_selects h⟩

/-- A word that no row selects decodes to no command. -/
theorem decode_error_of_no_row {c : Command} (h : ∀ r ∈ opcodeTable, r.selects c.ctl = false) :
    ∃ e, decode c = .error e := by
  cases hd : decode c with
  | error e => exact ⟨e, rfl⟩
  | ok i =>
    have hsel := (decode_eq_ok_iff.mp hd).row_selects
    rw [h i.row i.row_mem] at hsel
    cases hsel

/-! ## The ignored fields (30_encoding.md R78) -/

/-- A single-bit command is carried whatever `CTL[12:4]` and VALUE_IN hold. -/
theorem Command.Carries.of_singleBit {c c' : Command} {i : Instr} (h : c.Carries i) (hr : ctlRsv c.ctl = ctlRsv c'.ctl)
    (ho : ctlOpc c.ctl = ctlOpc c'.ctl) (h3 : ctlOpc c.ctl ≤ 3) (hp : c.place = c'.place) : c'.Carries i := by
  have hi : i.opc ≤ 3 := h.opc ▸ h3
  exact ⟨hr ▸ h.rsv, ho ▸ h.opc, hp ▸ h.place, fun _ => by omega, fun _ => by omega, fun _ => by omega⟩

theorem decode_eq_of_singleBit {c c' : Command} (hr : ctlRsv c.ctl = ctlRsv c'.ctl) (ho : ctlOpc c.ctl = ctlOpc c'.ctl)
    (h3 : ctlOpc c.ctl ≤ 3) (hp : c.place = c'.place) : decode c = decode c' :=
  decode_congr hr fun _ => ⟨fun h => h.of_singleBit hr ho h3 hp, fun h => h.of_singleBit hr.symm ho.symm (ho ▸ h3) hp.symm⟩

/-- VALUE_IN is carried by INS alone. -/
theorem decode_withValueIn {c : Command} (v : Bus) (h6 : ctlOpc c.ctl ≠ 6) : decode { c with valueIn := v } = decode c :=
  decode_congr rfl fun _ =>
    ⟨fun ⟨hr, ho, hp, hc, hw, _⟩ => ⟨hr, ho, hp, hc, hw, fun h => absurd (ho.trans h) h6⟩,
      fun ⟨hr, ho, hp, hc, hw, _⟩ => ⟨hr, ho, hp, hc, hw, fun h => absurd (ho.trans h) h6⟩⟩

/-! ## The statements -/

/-- Settles O1: the record a command is encoded as carries it, and a record decodes to what it carries. -/
theorem decodingAnEncodedCommandGivesItBack : Obligations.DecodingAnEncodedCommandGivesItBack := by
  unfold Obligations.DecodingAnEncodedCommandGivesItBack
  exact fun _ _ h => (encode_carries h).decode_eq

/-- Settles O4: each decoded command has a row, and no word is in two rows. -/
theorem decoderFollowsTheOpcodeTable : Obligations.DecoderFollowsTheOpcodeTable := by
  unfold Obligations.DecoderFollowsTheOpcodeTable
  refine ⟨fun c r hr h => ?_, fun c => decode_error_of_no_row, fun ctl r r' => row_eq_of_selects, rfl⟩
  obtain ⟨i, hd, rfl⟩ := decode_of_selects hr h
  exact ⟨i, hd, rfl⟩

/-- Settles O5, by the three answers of the decoder. -/
theorem rejectedControlWordsAreTheUnassignedOnes : Obligations.RejectedControlWordsAreTheUnassignedOnes := by
  unfold Obligations.RejectedControlWordsAreTheUnassignedOnes
  exact decode_error_iff

/-- Settles O6: a record carries a command whatever the fields the command ignores hold. -/
theorem ignoredFieldsDoNotMatter : Obligations.IgnoredFieldsDoNotMatter := by
  unfold Obligations.IgnoredFieldsDoNotMatter
  refine ⟨fun c c' hr ho _ h3 hp => ⟨decode_eq_of_singleBit hr ho h3 hp, fun i hd => ?_⟩, fun p => ⟨rfl, rfl, rfl⟩,
    fun c v => decode_withValueIn v, fun c i hd => (decode_eq_ok_iff.mp hd).place.symm⟩
  exact Instr.width_of_singleBit ((decode_eq_ok_iff.mp hd).opc ▸ h3)

/-- Settles O3: each word is the one assembled of its command's fields. -/
theorem workedControlWordsDecode : Obligations.WorkedControlWordsDecode := by
  unfold Obligations.WorkedControlWordsDecode
  intro n b k v
  refine ⟨?_, ?_, ?_, ?_, ?_, ?_, ?_, ?_⟩ <;>
    exact (Command.Carries.of_ctlOf (by simp [ctlOf, Instr.opc, Instr.capsel, Instr.capacity, Instr.width])
      (by simp [Instr.width]) rfl (by simp [Instr.opc, Machine.valueOf])).decode_eq

end Sys2Proof
end

section
/-! SUPPORT. The Addressor's answer by the first failing check, a command at another place of the same position, a command of width
0, and the sum of a field's parts; with them the statements of 40_addressor.md are settled. -/

namespace Sys2Proof

/-! ## The parts of a field (40_addressor.md R106) -/

/-- The field's positions in byte `i` are those from `lo(i)` to `hi(i)`, and only the span's bytes have any. -/
theorem mem_field_iff {abs width i q : Nat} (h : 0 < width) (hq : q < 8) :
    (abs ≤ 8 * i + q ∧ 8 * i + q < abs + width) ↔ i ∈ span abs width ∧ fieldLo abs i ≤ q ∧ q ≤ fieldHi abs width i := by
  rw [mem_span_iff h, firstByte, lastByte, fieldLo, fieldHi]
  omega

/-- A byte of the span holds 1 to 8 of the field's positions. -/
theorem fieldBits_bounds {abs width i : Nat} (h : 0 < width) (hi : i ∈ span abs width) :
    1 ≤ fieldBits abs width i ∧ fieldBits abs width i ≤ 8 := by
  obtain ⟨-, hle, h7, -, -⟩ := fieldPart_of_mem_span h hi
  rw [fieldBits]
  omega

theorem fieldLo_firstByte (abs : Nat) : fieldLo abs (abs / 8) = abs % 8 := by
  rw [fieldLo]; omega

theorem fieldLo_of_after {abs i : Nat} (h : abs / 8 < i) : fieldLo abs i = 0 := by
  rw [fieldLo]; omega

theorem fieldHi_lastByte (abs width : Nat) :
    fieldHi abs width ((abs + width - 1) / 8) = (abs + width - 1) % 8 := by
  rw [fieldHi]; omega

theorem fieldHi_of_before {abs width i : Nat} (h : i < (abs + width - 1) / 8) : fieldHi abs width i = 7 := by
  rw [fieldHi]; omega

/-- The parts in the `n` bytes from `i` are the bits between the first of these bytes and the one after the last. -/
theorem sum_fieldBits_range' {abs width : Nat} (h : 0 < width) (i n : Nat) (hi : ∀ j ∈ List.range' i n, j ∈ span abs width) :
    bitsBefore abs width i + ((List.range' i n).map (fieldBits abs width)).sum = bitsBefore abs width (i + n) := by
  induction n generalizing i with
  | zero => rfl
  | succ n ih =>
    rw [List.range'_succ] at hi ⊢
    obtain ⟨-, -, -, hjoin, -⟩ := fieldPart_of_mem_span h (hi i (by simp))
    have hrest := ih (i + 1) fun j hj => hi j (List.mem_cons_of_mem i hj)
    rw [List.map_cons, List.sum_cons, ← Nat.add_assoc, ← hjoin, hrest, Nat.add_right_comm, Nat.add_assoc]

/-- `n(i)` over the span adds up to the width. -/
theorem sum_fieldBits_span (abs : Nat) {width : Nat} (h : 0 < width) :
    ((span abs width).map (fieldBits abs width)).sum = width := by
  have hsum := sum_fieldBits_range' h (firstByte abs) (spanLen abs width) fun _ hj => hj
  have hend : firstByte abs + spanLen abs width = lastByte abs width + 1 := by
    have := firstByte_le_lastByte abs h
    rw [spanLen_pos abs h]; omega
  rwa [bitsBefore_first, Nat.zero_add, hend, bitsBefore_end abs h] at hsum

/-- Settles O25: the bounds of the span, the part of the field in each of its bytes, and the sum of the parts. -/
theorem spanPartsMakeUpTheField : Obligations.SpanPartsMakeUpTheField := by
  unfold Obligations.SpanPartsMakeUpTheField
  refine ⟨fun abs width h => ⟨fun i => mem_span_iff h, fun i q => mem_field_iff h, fun i hi => ?_,
    sum_fieldBits_span abs h⟩, fun abs => rfl⟩
  obtain ⟨hone, height⟩ := fieldBits_bounds h hi
  exact ⟨rfl, hone, height, fun he => he ▸ fieldLo_firstByte abs, fieldLo_of_after,
    fun he => he ▸ fieldHi_lastByte abs width, fieldHi_of_before⟩

end Sys2Proof

namespace Sys2Proof.Machine

/-! ## The Addressor's answer (40_addressor.md R100, R107) -/

/-- The outcome of a request depends on its place only through the length and `abs`. -/
theorem validate_congr {p q : Place} (policy : ZeroWidthPolicy) (width cap : Nat) (hn : p.srcLen = q.srcLen)
    (habs : p.abs = q.abs) : validate policy p width cap = validate policy q width cap := by
  rw [validate, validate, Place.total, Place.total, hn, habs]

/-- A request whose start is outside the source fails there, unless its width is rejected first. -/
theorem validate_of_start_outside {policy : ZeroWidthPolicy} {p : Place} {width cap : Nat} (h : p.total ≤ p.abs) :
    validate policy p width cap = .error (if policy = .reject ∧ width = 0 then .zeroWidth else .startOffsetTooBig) := by
  rw [validate, if_pos h]
  split <;> rfl

/-- A request accepted for a source is accepted for every longer one. -/
theorem validate_ok_of_longer {policy : ZeroWidthPolicy} {p : Place} {width cap n a : Nat} (hn : p.srcLen ≤ n)
    (h : validate policy p width cap = .ok a) : validate policy { p with srcLen := n } width cap = .ok a := by
  obtain ⟨rfl, hwidth, hstart, hcap, hend⟩ := validate_ok_iff.mp h
  have htotal : p.total ≤ 8 * n := Nat.mul_le_mul_left 8 hn
  exact validate_ok_iff.mpr ⟨rfl, hwidth, Nat.lt_of_lt_of_le hstart htotal, hcap, Nat.le_trans hend htotal⟩

/-- Settles O19, by when the Addressor accepts. -/
theorem addressorAcceptsExactlyTheFieldsInside : Obligations.AddressorAcceptsExactlyTheFieldsInside := by
  unfold Obligations.AddressorAcceptsExactlyTheFieldsInside
  refine ⟨fun policy p width cap a h => ?_, fun policy p q width cap => validate_congr policy width cap,
    fun policy p width cap n a => validate_ok_of_longer⟩
  have hwidth : ¬(policy = .reject ∧ width = 0) := fun h0 => by omega
  simp only [validate_ok_iff, hwidth, not_false_eq_true, true_and]

/-! ## The status of a granted command -/

/-- The status a command ends with, by the Addressor's answer to its request. -/
def answerStatus : Except Status Nat → Status
  | .error status => status
  | .ok _ => .ok

/-- The checks in the order in which they are made. -/
theorem answerStatus_validate (policy : ZeroWidthPolicy) (p : Place) (width cap : Nat) :
    answerStatus (validate policy p width cap) =
      if policy = .reject ∧ width = 0 then .zeroWidth
      else if p.total ≤ p.abs then .startOffsetTooBig
      else if cap < width then .numberOfBitsTooBigForOutputType
      else if p.total < p.abs + width then .outOfRange
      else .ok := by
  rw [validate]
  simp only [apply_ite answerStatus]
  rfl

/-- A granted command with a valid request ends OK. -/
theorem exec_of_ok {i : Instr} {s : State} {a : Nat} (hg : s.grants i = true)
    (hv : validate s.config.zeroWidthPolicy i.place i.width i.capacity = .ok a) :
    ∃ t, exec i s = .next t ∧ t.status = some .ok := by
  obtain ⟨hn, hb⟩ := State.grants_iff.mp hg
  cases hw : i.writes
  · obtain ⟨u, -, hrun⟩ := runRead_of_ok (result := resultOf i) hn hv
    exact ⟨_, by rw [exec_of_reads hw, hrun], rfl⟩
  · obtain ⟨m', -, hrun⟩ := runWrite_of_ok (value := valueOf i) hn (hb hw) hv
    exact ⟨_, by rw [exec_of_writes hw, hrun], rfl⟩

/-- A granted command answers a next state, with the status of the Addressor's answer. -/
theorem exec_status {i : Instr} {s : State} (hg : s.grants i = true) :
    ∃ t, exec i s = .next t ∧
      t.status = some (answerStatus (validate s.config.zeroWidthPolicy i.place i.width i.capacity)) := by
  cases hv : validate s.config.zeroWidthPolicy i.place i.width i.capacity with
  | error status => exact ⟨_, exec_of_error hg hv, rfl⟩
  | ok a => exact exec_of_ok hg hv

/-- Settles O15: a granted command has the status of the Addressor's answer, which is that of the first failing check. -/
theorem statusFollowsThePriorityOrder : Obligations.StatusFollowsThePriorityOrder := by
  unfold Obligations.StatusFollowsThePriorityOrder
  intro i s hg
  rw [← answerStatus_validate]
  exact exec_status hg

/-- A granted command whose start is outside the source raises, and does nothing else. -/
theorem exec_of_start_outside {i : Instr} {s : State} (hg : s.grants i = true) (h : i.place.total ≤ i.place.abs) :
    exec i s = .next (s.raise
      (if s.config.zeroWidthPolicy = .reject ∧ i.width = 0 then .zeroWidth else .startOffsetTooBig)) :=
  exec_of_error hg (validate_of_start_outside h)

/-- Settles O18: an unassigned control word raises, and no start is inside an empty source. -/
theorem emptySourceFailsEveryCommand : Obligations.EmptySourceFailsEveryCommand := by
  unfold Obligations.EmptySourceFailsEveryCommand
  intro s c rest hc hf h0
  refine ⟨fun e hd => step_of_decode_error hc hf hd, fun i hd hb => ?_⟩
  have hlen : i.place.srcLen = 0 := by rw [← (decode_eq_ok_iff.mp hd).place]; exact h0
  have hg : (s.withHostCommands rest).grants i = true := State.grants_iff.mpr ⟨by simp [hlen], hb⟩
  rw [step_of_decode_ok hc hf hd, exec_of_start_outside hg (by simp [Place.total, hlen])]
  rfl

/-! ## A command at another place (40_addressor.md R102) -/

@[simp] theorem withPlace_place (p : Place) (i : Instr) : (withPlace p i).place = p := by cases i <;> rfl
@[simp] theorem withPlace_width (p : Place) (i : Instr) : (withPlace p i).width = i.width := by cases i <;> rfl
@[simp] theorem withPlace_capacity (p : Place) (i : Instr) : (withPlace p i).capacity = i.capacity := by cases i <;> rfl
@[simp] theorem withPlace_writes (p : Place) (i : Instr) : (withPlace p i).writes = i.writes := by cases i <;> rfl
@[simp] theorem resultOf_withPlace (p : Place) (i : Instr) : resultOf (withPlace p i) = resultOf i := by cases i <;> rfl
@[simp] theorem valueOf_withPlace (p : Place) (i : Instr) : valueOf (withPlace p i) = valueOf i := by cases i <;> rfl

/-- A command's outcome depends on its place only through the length and `abs`. -/
theorem exec_withPlace_congr {p q : Place} (i : Instr) (s : State) (hn : p.srcLen = q.srcLen) (habs : p.abs = q.abs) :
    exec (withPlace p i) s = exec (withPlace q i) s := by
  cases hw : i.writes
  · rw [exec_of_reads (by simpa using hw), exec_of_reads (by simpa using hw)]
    simp [runRead, hn, validate_congr _ _ _ hn habs]
  · rw [exec_of_writes (by simpa using hw), exec_of_writes (by simpa using hw)]
    simp [runWrite, hn, validate_congr _ _ _ hn habs]

/-- A start bit beyond 7 is a bit of a later byte, at the same position. -/
theorem Place.abs_carry (n byte bit : Nat) : (⟨n, byte, bit⟩ : Place).abs = (⟨n, byte + bit / 8, bit % 8⟩ : Place).abs := by
  simp only [Place.abs]; omega

/-- Settles O20: a command sees its place only through the length and `abs`. -/
theorem startBitBeyondSevenNamesALaterByte : Obligations.StartBitBeyondSevenNamesALaterByte := by
  unfold Obligations.StartBitBeyondSevenNamesALaterByte
  exact fun i s n byte bit => ⟨fun q hn habs => exec_withPlace_congr i s hn habs, Place.abs_carry n byte bit,
    exec_withPlace_congr i s rfl (Place.abs_carry n byte bit)⟩

/-! ## Width 0 (40_addressor.md R108) -/

theorem sextResult_zero (cap width : Nat) : sextResult cap width 0 = 0 := by
  simp [sextResult, BitVec.signExtend]

/-- The value 0 has the result 0 in every form. -/
theorem resultOf_zero (i : Instr) : resultOf i 0 = 0 := by
  cases i <;> simp [resultOf, zextResult, sextResult_zero]

/-- A field of width 0 is written without an access. -/
theorem State.injectField_zero (s : State) (abs v : Nat) : s.injectField abs 0 v = some s.beginTransfer := rfl

/-- A granted command of width 0 whose request is valid responds 0 and touches nothing. -/
theorem exec_of_width_zero {i : Instr} {s : State} {a : Nat} (hg : s.grants i = true) (h0 : i.width = 0)
    (hv : validate s.config.zeroWidthPolicy i.place i.width i.capacity = .ok a) :
    exec i s = .next { s with response := some ⟨.ok, 0⟩, accesses := [] } := by
  obtain ⟨hn, hb⟩ := State.grants_iff.mp hg
  cases hw : i.writes
  · obtain ⟨u, hu, hrun⟩ := runRead_of_ok (result := resultOf i) hn hv
    obtain rfl : 0 = u := by simpa [h0, Memory.fieldValue_zero] using hu
    rw [exec_of_reads hw, hrun, resultOf_zero, h0]
    rfl
  · rw [exec_of_writes hw]
    exact (runWrite_next_iff hn (hb hw) hv).mpr ⟨s.beginTransfer, by rw [h0, State.injectField_zero], rfl⟩

/-- Settles O23: width 0 is rejected, or has only its start checked and an empty field transferred. -/
theorem zeroWidthFollowsThePolicy : Obligations.ZeroWidthFollowsThePolicy := by
  unfold Obligations.ZeroWidthFollowsThePolicy
  refine ⟨fun i s hg h0 => ⟨fun hr => ?_, fun hp h => ?_, fun hp h => ?_⟩, fun p => ⟨rfl, rfl, rfl⟩⟩
  · exact exec_of_error hg (by rw [validate, if_pos ⟨hr, h0⟩])
  · rw [exec_of_start_outside hg h, if_neg (by simp [hp])]
    rfl
  · exact exec_of_width_zero hg h0
      (validate_ok_iff.mpr ⟨rfl, by simp [hp], h, by omega, by omega⟩)

end Sys2Proof.Machine
end

section
/-! SUPPORT. The multi-bit commands as the two shapes, the capacity's part in a request, the bits and the number of a read
command's result, and a one-bit field read; with them the statements of 41_extract.md are settled. -/

namespace Sys2Proof.Machine

/-! ## The multi-bit commands of a capacity as the two shapes of a command -/

theorem exec_extuOf (c : Capacity) (p : Place) (width : Nat) (s : State) :
    exec (extuOf c p width) s = runRead p width (capacityBits c) zextResult s := by
  cases c <;> rfl

theorem exec_extsOf (c : Capacity) (p : Place) (width : Nat) (s : State) :
    exec (extsOf c p width) s = runRead p width (capacityBits c) (sextResult (capacityBits c) width) s := by
  cases c <;> rfl

theorem exec_insOf (c : Capacity) (p : Place) (width : Nat) (value : Bus) (s : State) :
    exec (insOf c p width value) s = runWrite p width (capacityBits c) value s := by
  cases c <;> rfl

theorem exec_test (p : Place) (s : State) : exec (.test p) s = runRead p 1 1 zextResult s := rfl

theorem exec_setb (p : Place) (s : State) : exec (.setb p) s = runWrite p 1 1 1 s := rfl

theorem exec_clrb (p : Place) (s : State) : exec (.clrb p) s = runWrite p 1 1 0 s := rfl

theorem capacityBits_pos (c : Capacity) : 1 ≤ capacityBits c := by
  cases c <;> decide

theorem capacityBits_le (c : Capacity) : capacityBits c ≤ 64 := by
  cases c <;> decide

/-! ## Valid requests -/

theorem validate_ok_of_inside {policy : ZeroWidthPolicy} {p : Place} {width cap : Nat}
    (h0 : policy = .reject → 1 ≤ width) (hstart : p.abs < p.total) (hcap : width ≤ cap)
    (hend : p.abs + width ≤ p.total) : validate policy p width cap = .ok p.abs :=
  validate_ok_iff.mpr ⟨rfl, fun ⟨hr, hz⟩ => by have := h0 hr; omega, hstart, hcap, hend⟩

/-- A field of width at least 1 that ends inside the source begins there too. -/
theorem validate_ok_of_pos {policy : ZeroWidthPolicy} {p : Place} {width cap : Nat} (hw : 1 ≤ width)
    (hcap : width ≤ cap) (hend : p.abs + width ≤ p.total) : validate policy p width cap = .ok p.abs :=
  validate_ok_of_inside (fun _ => hw) (by omega) hcap hend

/-- Capacities that both hold the width are alike to the Addressor (D21). -/
theorem validate_capacity_congr (policy : ZeroWidthPolicy) (p : Place) {width cap cap' : Nat} (h : width ≤ cap)
    (h' : width ≤ cap') : validate policy p width cap = validate policy p width cap' := by
  simp only [validate, Nat.not_lt.mpr h, Nat.not_lt.mpr h', if_false]

theorem runRead_capacity_congr (p : Place) {width cap cap' : Nat} (result : Nat → Bus) (s : State) (h : width ≤ cap)
    (h' : width ≤ cap') : runRead p width cap result s = runRead p width cap' result s := by
  simp only [runRead, validate_capacity_congr _ p h h']

theorem runWrite_capacity_congr (p : Place) {width cap cap' : Nat} (value : Bus) (s : State) (h : width ≤ cap)
    (h' : width ≤ cap') : runWrite p width cap value s = runWrite p width cap' value s := by
  simp only [runWrite, validate_capacity_congr _ p h h']

/-- A read command on a valid request, where the field's value is known. -/
theorem runRead_of_fieldValue {p : Place} {width cap a u : Nat} {result : Nat → Bus} {s : State}
    (hn : p.srcLen ≤ s.mem.size) (hv : validate s.config.zeroWidthPolicy p width cap = .ok a)
    (hu : s.mem.fieldValue p.abs width = some u) :
    runRead p width cap result s =
      .next { s with response := some ⟨.ok, result u⟩, accesses := readAccesses p.abs width } := by
  obtain ⟨u', hu', hrun⟩ := runRead_of_ok (result := result) hn hv
  obtain rfl : u = u' := Option.some.inj (hu.symm.trans hu')
  exact hrun

/-! ## The bits of a result (41_extract.md R123, R124) -/

theorem testBit_eq_false_of_width_le {u width k : Nat} (hu : u < 2 ^ width) (h : width ≤ k) : u.testBit k = false :=
  Nat.testBit_lt_two_pow (Nat.lt_of_lt_of_le hu (Nat.pow_le_pow_right (by omega) h))

theorem getLsbD_zextResult {u width : Nat} (hu : u < 2 ^ width) (h64 : width ≤ 64) (k : Nat) :
    (zextResult u).getLsbD k = u.testBit k := by
  rw [zextResult, BitVec.getLsbD_ofNat]
  by_cases hk : k < 64
  · simp [hk]
  · simp [testBit_eq_false_of_width_le hu (by omega : width ≤ k)]

/-- The bits of a sign-extended result, for every width: one of width 0 has no bit set. -/
theorem getLsbD_sextResult_of_lt {cap width u : Nat} (hu : u < 2 ^ width) (hcap : width ≤ cap) (h64 : cap ≤ 64)
    (k : Nat) : (sextResult cap width u).getLsbD k =
      if k < width then u.testBit k else decide (k < cap) && u.testBit (width - 1) := by
  rcases Nat.eq_zero_or_pos width with rfl | hw
  · obtain rfl : u = 0 := by simpa using hu
    simp [sextResult_zero]
  · exact getLsbD_sextResult hw hcap h64 k

/-- The two forms of a result have the same bits in the field. -/
theorem zextResult_sextResult_agree {cap width u k : Nat} (hu : u < 2 ^ width) (hcap : width ≤ cap) (h64 : cap ≤ 64)
    (hk : k < width) : (zextResult u).getLsbD k = (sextResult cap width u).getLsbD k := by
  rw [getLsbD_zextResult hu (by omega), getLsbD_sextResult_of_lt hu hcap h64, if_pos hk]

/-- Where the sign bit is 0, or no bit of the capacity lies above the field, sign extension is zero extension. -/
theorem zextResult_eq_sextResult {cap width u : Nat} (hu : u < 2 ^ width) (hcap : width ≤ cap) (h64 : cap ≤ 64)
    (h : u.testBit (width - 1) = false ∨ width = cap) : zextResult u = sextResult cap width u := by
  refine BitVec.eq_of_getLsbD_eq fun k _ => ?_
  by_cases hk : k < width
  · exact zextResult_sextResult_agree hu hcap h64 hk
  · rw [getLsbD_zextResult hu (by omega), getLsbD_sextResult_of_lt hu hcap h64, if_neg hk,
      testBit_eq_false_of_width_le hu (by omega)]
    rcases h with hsign | rfl
    · simp [hsign]
    · simp [hk]

/-- The low `cap` bits of a sign-extended result are the sign extension itself. -/
theorem setWidth_sextResult {cap : Nat} (h64 : cap ≤ 64) (width u : Nat) :
    (sextResult cap width u).setWidth cap = (BitVec.ofNat width u).signExtend cap := by
  rw [sextResult, BitVec.setWidth_setWidth_of_le _ h64, BitVec.setWidth_eq]

/-- The two's-complement reading of a sign-extended result (general knowledge, G1; log 18). -/
theorem toInt_sextResult {cap width u : Nat} (hw : 1 ≤ width) (hu : u < 2 ^ width) (hcap : width ≤ cap)
    (h64 : cap ≤ 64) : ((sextResult cap width u).setWidth cap).toInt =
      if u < 2 ^ (width - 1) then (u : Int) else (u : Int) - 2 ^ width := by
  have hpow : 2 ^ (width - 1) * 2 = 2 ^ width := Nat.two_pow_pred_mul_two hw
  have hhalf : 2 * u < 2 ^ width ↔ u < 2 ^ (width - 1) := by omega
  rw [setWidth_sextResult h64, BitVec.toInt_signExtend_of_le hcap, BitVec.toInt_eq_toNat_cond, BitVec.toNat_ofNat,
    Nat.mod_eq_of_lt hu]
  simp only [hhalf, Nat.cast_pow, Nat.cast_ofNat]

/-! ## One-bit fields (41_extract.md R135) -/

theorem zextResult_bit (b : Bool) : zextResult b.toNat = if b then 1 else 0 := by
  cases b <;> rfl

/-- A signed one-bit field is its bit copied to the whole capacity. -/
theorem sextResult_bit {cap : Nat} (h1 : 1 ≤ cap) (h64 : cap ≤ 64) (b : Bool) :
    sextResult cap 1 b.toNat = if b then BitVec.ofNat 64 (2 ^ cap - 1) else 0 := by
  cases b with
  | false => exact sextResult_zero cap 1
  | true =>
    refine BitVec.eq_of_getLsbD_eq fun k hk => ?_
    rw [getLsbD_sextResult_of_lt (by decide) h1 h64, if_pos rfl, BitVec.getLsbD_ofNat, Nat.testBit_two_pow_sub_one]
    rcases Nat.eq_zero_or_pos k with rfl | h0
    · simpa using Nat.lt_of_succ_le h1
    · simp [hk, Nat.not_lt.mpr h0]

theorem Memory.fieldValue_one_of_bit {m : Memory} {abs : Nat} {b : Bool} (h : m.bit abs = some b) :
    m.fieldValue abs 1 = some b.toNat := by
  simpa using m.fieldValue_succ (m.fieldValue_zero abs) h

/-- A read of a one-bit field inside the source: the bit in the command's form, and one access. -/
theorem runRead_of_bit {p : Place} {cap : Nat} {result : Nat → Bus} {s : State} {b : Bool}
    (hn : p.srcLen ≤ s.mem.size) (hcap : 1 ≤ cap) (hstart : p.abs < p.total) (hb : s.mem.bit p.abs = some b) :
    runRead p 1 cap result s =
      .next { s with response := some ⟨.ok, result b.toNat⟩, accesses := [.read (p.abs / 8)] } := by
  rw [runRead_of_fieldValue hn (validate_ok_of_pos (Nat.le_refl 1) hcap hstart) (Memory.fieldValue_one_of_bit hb),
    readAccesses_one]

/-! ## The statements -/

/-- Settles O28: the walk answers the field's value, which fixes the field's bits. -/
theorem byteWalkComputesTheFieldValue : Obligations.ByteWalkComputesTheFieldValue := by
  unfold Obligations.ByteWalkComputesTheFieldValue
  intro s abs width h
  obtain ⟨u, hu⟩ := s.mem.fieldValue_of_size h
  exact ⟨u, by rw [State.extractField_eq h hu]; rfl, hu, s.mem.fieldValue_lt hu, s.mem.bit_of_fieldValue hu⟩

/-- Settles O33: each of the three commands reads the one-bit field and gives its bit in its own form. -/
theorem signedOneBitFieldIsMinusOneOrZero : Obligations.SignedOneBitFieldIsMinusOneOrZero := by
  unfold Obligations.SignedOneBitFieldIsMinusOneOrZero
  intro c p s b hn hstart hb
  have hcap := capacityBits_pos c
  refine ⟨?_, ?_, ?_⟩
  · rw [exec_extsOf, runRead_of_bit hn hcap hstart hb, sextResult_bit hcap (capacityBits_le c)]
  · rw [exec_extuOf, runRead_of_bit hn hcap hstart hb, zextResult_bit]
  · rw [exec_test, runRead_of_bit hn (Nat.le_refl 1) hstart hb, zextResult_bit]

/-- Settles O29: the position holds a bit, and TEST reads it as a one-bit field. -/
theorem testReturnsTheBit : Obligations.TestReturnsTheBit := by
  unfold Obligations.TestReturnsTheBit
  intro p s hn hstart
  obtain ⟨b, hb⟩ := s.mem.bit_of_lt_size (Nat.lt_of_lt_of_le hstart (Nat.mul_le_mul_left 8 hn))
  exact ⟨b, hb, by rw [exec_test, runRead_of_bit hn (Nat.le_refl 1) hstart hb, zextResult_bit]⟩

/-- `EXTU.c` of a valid field, for every capacity. -/
theorem extuOf_returnsField (c : Capacity) : Claims.ExtuReturnsField (extuOf c) (capacityBits c) := by
  intro p width s hn h0 hstart hcap hend
  obtain ⟨u, hu, hrun⟩ := runRead_of_ok (result := zextResult) hn (validate_ok_of_inside h0 hstart hcap hend)
  have hlt := s.mem.fieldValue_lt hu
  refine ⟨u, hu, hlt, fun k hk => ?_, by rw [exec_extuOf, hrun, zextResult]⟩
  exact (getLsbD_zextResult hlt (hcap.trans (capacityBits_le c)) k).trans
    (testBit_eq_false_of_width_le hlt (hcap.trans hk))

/-- Settles O30, by the claim for every capacity. -/
theorem extuReturnsTheFieldValue : Obligations.ExtuReturnsTheFieldValue := by
  unfold Obligations.ExtuReturnsTheFieldValue
  exact ⟨extuOf_returnsField .cap8, extuOf_returnsField .cap16, extuOf_returnsField .cap32, extuOf_returnsField .cap64⟩

/-- `EXTS.c` of a valid field, for every capacity. -/
theorem extsOf_returnsField (c : Capacity) : Claims.ExtsReturnsField (extsOf c) (capacityBits c) := by
  intro p width s hn h0 hstart hcap hend
  obtain ⟨u, hu, hrun⟩ := runRead_of_ok (result := sextResult (capacityBits c) width) hn
    (validate_ok_of_inside h0 hstart hcap hend)
  exact ⟨u, _, hu, getLsbD_sextResult_of_lt (s.mem.fieldValue_lt hu) hcap (capacityBits_le c), by rw [exec_extsOf, hrun]⟩

/-- Settles O31, by the claim for every capacity. -/
theorem extsReturnsTheSignExtendedField : Obligations.ExtsReturnsTheSignExtendedField := by
  unfold Obligations.ExtsReturnsTheSignExtendedField
  exact ⟨extsOf_returnsField .cap8, extsOf_returnsField .cap16, extsOf_returnsField .cap32, extsOf_returnsField .cap64⟩

/-- Settles O32, by the two's-complement reading of a sign-extended result. -/
theorem signedResultReadsAsANumber : Obligations.SignedResultReadsAsANumber := by
  unfold Obligations.SignedResultReadsAsANumber
  intro c p width u s hn hw hcap hend hu
  have hrun := runRead_of_fieldValue (result := sextResult (capacityBits c) width) hn
    (validate_ok_of_pos hw hcap hend) hu
  exact ⟨_, _, (exec_extsOf c p width s).trans hrun, rfl,
    toInt_sextResult hw (s.mem.fieldValue_lt hu) hcap (capacityBits_le c)⟩

/-- Settles O34: the three commands read one value, whose two forms agree in the field and above it where no sign is copied. -/
theorem unsignedAndSignedReadsAgree : Obligations.UnsignedAndSignedReadsAgree := by
  unfold Obligations.UnsignedAndSignedReadsAgree
  intro c c' p width s hn hw hcap hcap' hend
  have hv := validate_ok_of_pos (policy := s.config.zeroWidthPolicy) hw hcap hend
  obtain ⟨u, hu, hrun⟩ := runRead_of_ok (result := zextResult) hn hv
  have hrun' := runRead_of_fieldValue (result := sextResult (capacityBits c) width) hn hv hu
  have hlt := s.mem.fieldValue_lt hu
  have hfirst : s.mem.bit p.abs = some (u.testBit (width - 1)) := s.mem.bit_of_fieldValue hu 0 hw
  refine ⟨_, _, _, _, _, (exec_extuOf c p width s).trans hrun, (exec_extsOf c p width s).trans hrun',
    (exec_extuOf c' p width s).trans ((runRead_capacity_congr p zextResult s hcap' hcap).trans hrun), rfl, rfl, rfl,
    fun k hk => zextResult_sextResult_agree hlt hcap (capacityBits_le c) hk,
    fun h => zextResult_eq_sextResult hlt hcap (capacityBits_le c) (h.imp_left fun h0 => ?_)⟩
  exact Option.some.inj (hfirst.symm.trans h0)

/-- Settles O35: the Addressor sees no memory, and the field's value is the same in both. -/
theorem readResultDependsOnlyOnTheFieldBits : Obligations.ReadResultDependsOnlyOnTheFieldBits := by
  unfold Obligations.ReadResultDependsOnlyOnTheFieldBits
  intro i s s' t t' hw hconfig hbits h h'
  have hg := grants_of_exec_next h
  have hg' := grants_of_exec_next h'
  cases hv : validate s.config.zeroWidthPolicy i.place i.width i.capacity with
  | error status =>
    rw [exec_of_error hg hv] at h
    rw [exec_of_error hg' (hconfig ▸ hv)] at h'
    cases h; cases h'
    exact ⟨rfl, rfl⟩
  | ok a =>
    obtain ⟨hn, -⟩ := State.grants_iff.mp hg
    obtain ⟨hn', -⟩ := State.grants_iff.mp hg'
    obtain ⟨u, hu, hrun⟩ := runRead_of_ok (result := resultOf i) hn hv
    have hu' : s'.mem.fieldValue i.place.abs i.width = some u := Memory.fieldValue_congr hbits ▸ hu
    rw [exec_of_reads hw, hrun] at h
    rw [exec_of_reads hw, runRead_of_fieldValue hn' (hconfig ▸ hv) hu'] at h'
    cases h; cases h'
    exact ⟨rfl, rfl⟩

/-- Settles O44: width 1 fits the capacity 1 of the single-bit commands and every other capacity alike. -/
theorem singleBitCommandsAreWidthOneFields : Obligations.SingleBitCommandsAreWidthOneFields := by
  unfold Obligations.SingleBitCommandsAreWidthOneFields
  intro c p s
  have hcap := capacityBits_pos c
  rw [exec_test, exec_setb, exec_clrb, exec_extuOf, exec_insOf, exec_insOf]
  exact ⟨runRead_capacity_congr p _ s (Nat.le_refl 1) hcap, runWrite_capacity_congr p 1 s (Nat.le_refl 1) hcap,
    runWrite_capacity_congr p 0 s (Nat.le_refl 1) hcap⟩

end Sys2Proof.Machine
end

section
/-! SUPPORT. The bits of the supplied value, of a patched field and of a patched one-bit field, and what a read command finds where a
write command ended OK; with them the statements of 42_inject.md are settled. -/

namespace Sys2Proof.Machine

/-! ## The supplied value (42_inject.md R152) -/

theorem testBit_truncValue (width : Nat) (value : Bus) (k : Nat) :
    (truncValue width value).testBit k = (decide (k < width) && value.getLsbD k) := by
  rw [truncValue, Nat.testBit_mod_two_pow, BitVec.getLsbD]

theorem testBit_truncValue_of_lt {width k : Nat} (value : Bus) (h : k < width) :
    (truncValue width value).testBit k = value.getLsbD k := by
  simp [testBit_truncValue, h]

theorem truncValue_lt (width : Nat) (value : Bus) : truncValue width value < 2 ^ width :=
  Nat.mod_lt _ (Nat.two_pow_pos width)

theorem truncValue_congr {width : Nat} {v v' : Bus} (h : ∀ k < width, v.getLsbD k = v'.getLsbD k) :
    truncValue width v = truncValue width v' := by
  refine Nat.eq_of_testBit_eq fun k => ?_
  rw [testBit_truncValue, testBit_truncValue]
  by_cases hk : k < width
  · rw [h k hk]
  · simp [hk]

/-- A write command sees its value only truncated to the width. -/
theorem runWrite_value_congr (p : Place) {width : Nat} (cap : Nat) {v v' : Bus} (s : State)
    (h : truncValue width v = truncValue width v') : runWrite p width cap v s = runWrite p width cap v' s := by
  simp only [runWrite, h]

/-! ## A patched field (42_inject.md R150) -/

section
variable {abs width v : Nat} {m m' : Memory}

/-- The bits of a patched field are the value's, the first the most significant. -/
theorem PatchedFrom.bit_inside (h : PatchedFrom abs width v (spanLen abs width) (firstByte abs) m m')
    (hsize : abs + width ≤ 8 * m.size) {j : Nat} (hj : j < width) : m'.bit (abs + j) = some (v.testBit (width - 1 - j)) := by
  obtain ⟨b, hb⟩ := m.bit_of_lt_size (k := abs + j) (by omega)
  rw [h.bit (by omega), if_pos (by omega), hb, Option.map_some]
  congr 2; omega

theorem PatchedFrom.fieldValue (h : PatchedFrom abs width v (spanLen abs width) (firstByte abs) m m')
    (hsize : abs + width ≤ 8 * m.size) : m'.fieldValue abs width = some (v % 2 ^ width) :=
  m'.fieldValue_of_bits abs width v fun _ hj => h.bit_inside hsize hj

end

/-! ## A patched one-bit field (42_inject.md R154, R155) -/

/-- The mask of the bit at position `q` of a byte has that bit set and no other. -/
theorem bitAt_bitMask : ∀ q < 8, ∀ p < 8, bitAt (0x80#8 >>> q) p = decide (p = q) := by decide

theorem bitAt_or (a b : Byte) (p : Nat) : bitAt (a ||| b) p = (bitAt a p || bitAt b p) :=
  BitVec.getLsbD_or

theorem bitAt_and_not (a b : Byte) (p : Nat) : bitAt (a &&& ~~~b) p = (bitAt a p && !bitAt b p) := by
  have hp : 7 - p < 8 := by omega
  simp [bitAt, hp]

/-- A byte patched in one bit has that bit forced to the value's low bit. -/
theorem patchByte_one (abs v : Nat) (b : Byte) :
    patchByte abs 1 v (abs / 8) b =
      if v.testBit 0 then b ||| (0x80#8 >>> (abs % 8)) else b &&& ~~~(0x80#8 >>> (abs % 8)) := by
  refine byte_ext fun p hp => ?_
  have hmask := bitAt_bitMask (abs % 8) (Nat.mod_lt abs (by decide)) p hp
  have hspan : abs / 8 ∈ span abs 1 := (mem_span_iff Nat.one_pos).mpr ⟨Nat.le_refl _, Nat.le_refl _⟩
  have hfield : (abs ≤ 8 * (abs / 8) + p ∧ 8 * (abs / 8) + p < abs + 1) ↔ p = abs % 8 := by omega
  rw [bitAt_patchByte b Nat.one_pos hspan hp, apply_ite (bitAt · p), bitAt_or, bitAt_and_not, hmask]
  simp only [hfield]
  by_cases hpos : p = abs % 8
  · have hlow : abs + 1 - 1 - (8 * (abs / 8) + p) = 0 := by omega
    rw [if_pos hpos, hlow]
    simp [hpos]
  · simp [hpos]

/-- A write command of width 1 inside the source: its byte with the bit forced to the value's low bit, and two accesses. -/
theorem runWrite_bit {p : Place} {cap : Nat} {value : Bus} {s : State} (hn : p.srcLen ≤ s.mem.size)
    (hborrow : s.borrow = .mutably) (hcap : 1 ≤ cap) (hstart : p.abs < p.total) :
    ∃ b, s.mem.read (p.abs / 8) = some b ∧
      runWrite p 1 cap value s =
        .next { s with
          mem := s.mem.set (p.abs / 8)
            (if value.getLsbD 0 then b ||| (0x80#8 >>> (p.abs % 8)) else b &&& ~~~(0x80#8 >>> (p.abs % 8)))
          response := some ⟨.ok, 0⟩
          accesses := [.read (p.abs / 8), .write (p.abs / 8)] } := by
  have hbyte : p.abs / 8 < s.mem.size := by rw [Place.total] at hstart; omega
  obtain ⟨b, hb⟩ := s.mem.read_of_lt_size hbyte
  refine ⟨b, hb, (runWrite_next_iff hn hborrow (validate_ok_of_pos (Nat.le_refl 1) hcap hstart)).mpr
    ⟨_, State.injectField_one (truncValue 1 value) hb, ?_⟩⟩
  rw [patchByte_one, testBit_truncValue_of_lt value Nat.one_pos]
  rfl

/-! ## A read after a write (42_inject.md R160) -/

section
variable {i : Instr} {s t : State} (hw : i.writes = true) (h : exec i s = .next t) (hok : t.status = some .ok)
include hw h hok

/-- Where a write command ended OK, the field is inside the source and its value is the one written. -/
theorem fieldValue_of_exec_ok :
    i.place.srcLen ≤ t.mem.size ∧ i.place.abs + i.width ≤ i.place.total ∧
      t.mem.fieldValue i.place.abs i.width = some (truncValue i.width (valueOf i)) := by
  obtain ⟨hg, ⟨status, hne, -, rfl⟩ | ⟨-, hr, -⟩ | ⟨hv, -, m', hm', rfl⟩⟩ := exec_next_cases h
  · exact absurd (Option.some.inj hok) hne
  · simp [hw] at hr
  · obtain ⟨hn, -⟩ := State.grants_iff.mp hg
    obtain ⟨-, -, -, -, hend⟩ := validate_ok_iff.mp hv
    have hvalue := hm'.fieldValue (hend.trans (Nat.mul_le_mul_left 8 hn))
    rw [Nat.mod_eq_of_lt (truncValue_lt _ _)] at hvalue
    exact ⟨hm'.size ▸ hn, hend, hvalue⟩

/-- A read command at the place and width of a write command that ended OK responds the value written, in its own form. -/
theorem runRead_of_exec_ok {cap : Nat} (result : Nat → Bus) (h1 : 1 ≤ i.width) (hcap : i.width ≤ cap) :
    ∃ t', runRead i.place i.width cap result t = .next t' ∧
      t'.response = some ⟨.ok, result (truncValue i.width (valueOf i))⟩ := by
  obtain ⟨hn, hend, hvalue⟩ := fieldValue_of_exec_ok hw h hok
  exact ⟨_, runRead_of_fieldValue hn (validate_ok_of_pos h1 hcap hend) hvalue, rfl⟩

end

/-- After an `INS.c` that ended OK, a read command of that field responds the low bits of the value, in its own form. -/
theorem runRead_of_insOf_ok {c : Capacity} {p : Place} {width cap : Nat} {v : Bus} {s t : State} (result : Nat → Bus)
    (hw : 1 ≤ width) (hcap : width ≤ cap) (h : exec (insOf c p width v) s = .next t) (hok : t.status = some .ok) :
    ∃ t', runRead p width cap result t = .next t' ∧ t'.response = some ⟨.ok, result (truncValue width v)⟩ := by
  obtain ⟨hwrites, hplace, hwidth, -, hvalue⟩ := insOf_eq c p width v
  have hread := runRead_of_exec_ok hwrites h hok (cap := cap) result
  rw [hplace, hwidth, hvalue] at hread
  exact hread hw hcap

/-! ## A signed value (41_extract.md R124; the two's-complement reading is general knowledge, G1, log 18) -/

/-- The low bits of a number's pattern are its pattern of that width. -/
theorem setWidth_ofInt {width n : Nat} (x : Int) (h : width ≤ n) : (BitVec.ofInt n x).setWidth width = BitVec.ofInt width x := by
  have hdvd : ((2 ^ width : Nat) : Int) ∣ ((2 ^ n : Nat) : Int) := Int.natCast_dvd_natCast.mpr (Nat.pow_dvd_pow 2 h)
  refine BitVec.eq_of_toInt_eq ?_
  rw [BitVec.toInt_setWidth, BitVec.toInt_ofInt, BitVec.toNat_ofInt,
    Int.toNat_of_nonneg (Int.emod_nonneg _ (by positivity)), Int.bmod_def, Int.bmod_def, Int.emod_emod_of_dvd x hdvd]

/-- A number that fits in the width, truncated to it and sign-extended, is itself. -/
theorem sextResult_truncValue_ofInt {cap width : Nat} {x : Int} (hw : 1 ≤ width) (h64 : width ≤ 64)
    (hlo : -(2 ^ (width - 1)) ≤ x) (hhi : x < 2 ^ (width - 1)) :
    sextResult cap width (truncValue width (BitVec.ofInt 64 x)) = (BitVec.ofInt cap x).setWidth 64 := by
  have hpattern : BitVec.ofNat width (truncValue width (BitVec.ofInt 64 x)) = BitVec.ofInt width x := by
    rw [← setWidth_ofInt x h64]
    exact BitVec.eq_of_toNat_eq (by simp [truncValue])
  rw [sextResult, hpattern, BitVec.signExtend, BitVec.toInt_ofInt_eq_self hw hlo hhi]

/-! ## The statements -/

/-- Settles O37: SETB writes a one-bit field with a value whose low bit is 1. -/
theorem setbForcesTheBitToOne : Obligations.SetbForcesTheBitToOne := by
  unfold Obligations.SetbForcesTheBitToOne
  intro p s hn hborrow hstart
  obtain ⟨b, hb, hrun⟩ := runWrite_bit (value := 1) hn hborrow (Nat.le_refl 1) hstart
  exact ⟨b, hb, (exec_setb p s).trans hrun⟩

/-- Settles O38: CLRB writes a one-bit field with a value whose low bit is 0. -/
theorem clrbForcesTheBitToZero : Obligations.ClrbForcesTheBitToZero := by
  unfold Obligations.ClrbForcesTheBitToZero
  intro p s hn hborrow hstart
  obtain ⟨b, hb, hrun⟩ := runWrite_bit (value := 0) hn hborrow (Nat.le_refl 1) hstart
  exact ⟨b, hb, (exec_clrb p s).trans hrun⟩

/-- `INS.c` into a valid field, for every capacity. -/
theorem insOf_writesField (c : Capacity) : Claims.InsWritesField (insOf c) (capacityBits c) := by
  intro p width v s hn hborrow h0 hstart hcap hend
  obtain ⟨m', hm', hrun⟩ := runWrite_of_ok (value := v) hn hborrow (validate_ok_of_inside h0 hstart hcap hend)
  refine ⟨m', (exec_insOf c p width v s).trans hrun, fun j hj => ?_, fun _ => hm'.bit_outside, fun _ => hm'.read_outside,
    hm'.indices⟩
  rw [hm'.bit_inside (hend.trans (Nat.mul_le_mul_left 8 hn)) hj, testBit_truncValue_of_lt v (by omega)]

/-- Settles O39, by the claim for every capacity. -/
theorem insWritesTheField : Obligations.InsWritesTheField := by
  unfold Obligations.InsWritesTheField
  exact ⟨insOf_writesField .cap8, insOf_writesField .cap16, insOf_writesField .cap32, insOf_writesField .cap64⟩

/-- Settles O42: values with equal low bits are equal once truncated, and a write command sees nothing else of them. -/
theorem insIgnoresTheBitsAboveTheWidth : Obligations.InsIgnoresTheBitsAboveTheWidth := by
  unfold Obligations.InsIgnoresTheBitsAboveTheWidth
  intro c p width v v' s h
  rw [exec_insOf, exec_insOf]
  exact runWrite_value_congr p _ s (truncValue_congr h)

/-- Settles O43: a write command that ended OK leaves its truncated value in the field, and each read command responds that value
in its own form. -/
theorem writeThenReadReturnsTheValue : Obligations.WriteThenReadReturnsTheValue := by
  unfold Obligations.WriteThenReadReturnsTheValue
  refine ⟨fun c₁ c₂ p width v s t hw hcap h hok => ⟨?_, ?_⟩, fun p s t h hok => ?_, fun p s t h hok => ?_⟩
  · rw [exec_extuOf]
    exact runRead_of_insOf_ok zextResult hw hcap h hok
  · have h64 := capacityBits_le c₂
    obtain ⟨t', hrun, hr⟩ := runRead_of_insOf_ok (sextResult (capacityBits c₂) width) hw hcap h hok
    refine ⟨t', _, (exec_extsOf c₂ p width t).trans hrun, hr, fun k => ?_, fun x hlo hhi hx => ?_⟩
    · have hsign := testBit_truncValue_of_lt v (Nat.sub_one_lt_of_lt hw)
      rw [getLsbD_sextResult hw hcap h64, hsign]
      exact ite_congr rfl (testBit_truncValue_of_lt v) fun _ => rfl
    · rw [hx]
      exact sextResult_truncValue_ofInt hw (hcap.trans h64) hlo hhi
  · rw [exec_test]
    exact runRead_of_exec_ok rfl h hok zextResult (Nat.le_refl 1) (Nat.le_refl 1)
  · rw [exec_test]
    exact runRead_of_exec_ok rfl h hok zextResult (Nat.le_refl 1) (Nat.le_refl 1)

end Sys2Proof.Machine
end

section
/-! SUPPORT. The place and the width an operation's command carries, what running an operation leaves of the host's side, the pattern
a get operation returns and the integer a write operation returns; with them the statements of 43_host_operations.md are settled. -/

namespace Sys2Proof.Machine

/-! ## The command of an operation (43_host_operations.md section 2) -/

@[simp] theorem shapePlace_single_srcLen (size : IntSize) (off : Nat) :
    (shapePlace (.single size off)).srcLen = intBytes size := rfl

@[simp] theorem shapePlace_single_abs (size : IntSize) (off : Nat) : (shapePlace (.single size off)).abs = off := by
  simp [shapePlace, Place.abs]

@[simp] theorem shapePlace_single_total (size : IntSize) (off : Nat) :
    (shapePlace (.single size off)).total = 8 * intBytes size := rfl

/-- An operation's command works where its shape says. -/
theorem hostCommand_place (op : HostOp) : (hostCommand op).place = shapePlace (hostShape op) := by
  cases op with
  | getBit sh => rfl
  | setBit sh => rfl
  | clearBit sh => rfl
  | getU c sh width => exact (extuOf_eq c _ _).2.1
  | getI c sh width => exact (extsOf_eq c _ _).2.1
  | setU c size off width value => exact (insOf_eq c _ _ _).2.1
  | set c len byte bit width value => exact (insOf_eq _ _ _ _).2.1

/-- An operation whose command writes returns the written storage. -/
theorem hostOutput_of_writes {op : HostOp} (hw : (hostCommand op).writes = true) (value : Bus) (m : Memory) :
    hostOutput op value m = writtenStorage (hostShape op) m := by
  cases op with
  | getBit sh => cases hw
  | setBit sh => rfl
  | clearBit sh => rfl
  | getU c sh width => exact absurd hw (by simp [hostCommand, (extuOf_eq c _ _).1])
  | getI c sh width => exact absurd hw (by simp [hostCommand, (extsOf_eq c _ _).1])
  | setU c size off width value => rfl
  | set c len byte bit width value => rfl

/-! ## The width the host issues (43_host_operations.md R191) -/

/-- A width that fits a capacity is issued as it is. -/
theorem issuedWidth_of_le {c : Capacity} {width : Nat} (h : width ≤ capacityBits c) : issuedWidth width = width :=
  Nat.min_eq_left (h.trans ((capacityBits_le c).trans (by decide)))

theorem capacityBits_lt_issuedWidth (c : Capacity) {width : Nat} (h : 127 < width) :
    capacityBits c < issuedWidth width := by
  have hle := capacityBits_le c
  rw [issuedWidth, Nat.min_eq_right h.le]
  omega

/-- A request wider than its capacity fails in one of two ways, whatever the width. -/
theorem validate_of_overwide (policy : ZeroWidthPolicy) (p : Place) {width cap : Nat} (h : cap < width) :
    validate policy p width cap =
      .error (if p.total ≤ p.abs then .startOffsetTooBig else .numberOfBitsTooBigForOutputType) := by
  have h0 : width ≠ 0 := Nat.ne_zero_of_lt h
  simp only [validate, h0, and_false, if_false, h, if_true]
  split <;> rfl

section
variable (p : Place) {width width' cap : Nat} (h : cap < width) (h' : cap < width')
include h h'

/-- Read commands wider than their capacity end the same way: the width and the form of the result make no difference. -/
theorem runRead_overwide_congr (result result' : Nat → Bus) (s : State) :
    runRead p width cap result s = runRead p width' cap result' s := by
  simp only [runRead, validate_of_overwide _ p h, validate_of_overwide _ p h']

theorem runWrite_overwide_congr (value : Bus) (s : State) :
    runWrite p width cap value s = runWrite p width' cap value s := by
  simp only [runWrite, validate_of_overwide _ p h, validate_of_overwide _ p h']

end

/-! ## What an operation leaves of the host's side (43_host_operations.md R189) -/

/-- A command that leaves the bound source as it was leaves the host's side as it was, in both shapes. -/
theorem keepsHostSide_of_mem_eq {i : Instr} {sh : Shape} {v : Nat} {s t : State} (h : exec i (s.bound sh v) = .next t)
    (hm : t.mem = (s.bound sh v).mem) : Claims.KeepsHostSide s (s.unbound sh t) := by
  obtain ⟨hconfig, hborrow, hcommands⟩ := exec_keeps_host_side h
  cases sh with
  | single size off => exact ⟨rfl, rfl, hconfig, hcommands⟩
  | sequence len byte bit => exact ⟨hm, hborrow, hconfig, hcommands⟩

/-- A command on a copy of an integer leaves the host's side as it was, whatever it does to the copy. -/
theorem keepsHostSide_of_single {i : Instr} {size : IntSize} {off v : Nat} {s t : State}
    (h : exec i (s.bound (.single size off) v) = .next t) :
    Claims.KeepsHostSide s (s.unbound (.single size off) t) := by
  obtain ⟨hconfig, -, hcommands⟩ := exec_keeps_host_side h
  exact ⟨rfl, rfl, hconfig, hcommands⟩

/-- An operation whose read command ended OK returns its output, and the host's side is as it was. -/
theorem runHostOp_of_read {op : HostOp} {v : Nat} {s t : State} {value : Bus} {result : HostResult}
    (hw : (hostCommand op).writes = false) (h : exec (hostCommand op) (s.bound (hostShape op) v) = .next t)
    (hr : t.response = some ⟨.ok, value⟩) (ho : hostOutput op value t.mem = some result) :
    ∃ t', runHostOp op v s = some (result, t') ∧ Claims.KeepsHostSide s t' :=
  ⟨_, runHostOp_of_next h hr ((hostResult_of_ok op value t.mem).trans ho),
    keepsHostSide_of_mem_eq h (exec_mem_of_reads hw h)⟩

/-- An operation whose command failed returns the failure alone, and the host's side is as it was. -/
theorem runHostOp_of_failure {op : HostOp} {v : Nat} {status : Status} {s t : State}
    (h : exec (hostCommand op) (s.bound (hostShape op) v) = .next t) (hs : t.status = some status) (hne : status ≠ .ok) :
    ∃ t', runHostOp op v s = some (.failure status, t') ∧ Claims.KeepsHostSide s t' := by
  obtain ⟨r, hr, rfl⟩ := Option.map_eq_some_iff.mp hs
  have hm := exec_mem_of_failure h (by simpa [hs] using hne)
  exact ⟨_, runHostOp_of_next h hr (hostResult_of_failure hne), keepsHostSide_of_mem_eq h hm⟩

/-! ## The pattern a get operation returns (43_host_operations.md R185, R186) -/

theorem lowBits_zextResult {c : Capacity} {width u : Nat} (hu : u < 2 ^ width) (hcap : width ≤ capacityBits c) :
    lowBits c (zextResult u) = u := by
  have hlt : u < 2 ^ capacityBits c := hu.trans_le (Nat.pow_le_pow_right (by decide) hcap)
  have h64 : u < 2 ^ 64 := hlt.trans_le (Nat.pow_le_pow_right (by decide) (capacityBits_le c))
  rw [lowBits, zextResult, BitVec.toNat_ofNat, Nat.mod_eq_of_lt h64, Nat.mod_eq_of_lt hlt]

theorem lowBits_lt (c : Capacity) (value : Bus) : lowBits c value < 2 ^ capacityBits c :=
  Nat.mod_lt _ (Nat.two_pow_pos _)

theorem testBit_lowBits_sextResult {c : Capacity} {width u k : Nat} (hu : u < 2 ^ width)
    (hcap : width ≤ capacityBits c) (hk : k < capacityBits c) :
    (lowBits c (sextResult (capacityBits c) width u)).testBit k =
      if k < width then u.testBit k else u.testBit (width - 1) := by
  simp only [testBit_lowBits, getLsbD_sextResult_of_lt hu hcap (capacityBits_le c), hk, decide_true, Bool.true_and]

section
variable {c : Capacity} {sh : Shape} {width v a u : Nat} {s : State}
  (hn : (shapePlace sh).srcLen ≤ (s.bound sh v).mem.size) (hcap : width ≤ capacityBits c)
  (hv : validate (s.bound sh v).config.zeroWidthPolicy (shapePlace sh) width (capacityBits c) = .ok a)
  (hu : (s.bound sh v).mem.fieldValue (shapePlace sh).abs width = some u)
include hn hcap hv hu

/-- `get_u{c}` of a valid field returns its value. -/
theorem runHostOp_getU : ∃ t, runHostOp (.getU c sh width) v s = some (.pattern c u, t) ∧ Claims.KeepsHostSide s t := by
  have hrun := (exec_extuOf c _ _ _).trans (runRead_of_fieldValue (result := zextResult) hn hv hu)
  rw [← issuedWidth_of_le hcap] at hrun
  refine runHostOp_of_read (extuOf_eq c _ _).1 hrun rfl ?_
  rw [hostOutput, lowBits_zextResult (Memory.fieldValue_lt _ hu) hcap]

/-- `get_i{c}` of a valid field returns the low bits of its sign-extended value. -/
theorem runHostOp_getI : ∃ t, runHostOp (.getI c sh width) v s =
    some (.pattern c (lowBits c (sextResult (capacityBits c) width u)), t) ∧ Claims.KeepsHostSide s t := by
  have hrun := (exec_extsOf c _ _ _).trans
    (runRead_of_fieldValue (result := sextResult (capacityBits c) width) hn hv hu)
  exact runHostOp_of_read (op := .getI c sh width) (extsOf_eq c _ _).1
    (by rw [hostCommand, issuedWidth_of_le hcap]; exact hrun) rfl rfl

end

/-- `get_bit` inside the source returns the bit at its position. -/
theorem runHostOp_getBit {sh : Shape} {v : Nat} {s : State} {b : Bool}
    (hn : (shapePlace sh).srcLen ≤ (s.bound sh v).mem.size) (hstart : (shapePlace sh).abs < (shapePlace sh).total)
    (hb : (s.bound sh v).mem.bit (shapePlace sh).abs = some b) :
    ∃ t, runHostOp (.getBit sh) v s = some (.boolean b, t) ∧ Claims.KeepsHostSide s t := by
  refine runHostOp_of_read rfl ((exec_test _ _).trans (runRead_of_bit hn (Nat.le_refl 1) hstart hb)) rfl ?_
  rw [hostOutput, zextResult_bit]
  cases b <;> rfl

/-! ## A single integer read and re-assembled (20_memory.md R46, 43_host_operations.md R189) -/

/-- A field of a presented integer is the integer's bits there. -/
theorem presentInteger_fieldValue {n off width : Nat} (v : Nat) (hend : off + width ≤ 8 * n) :
    (presentInteger n v).fieldValue off width = some (v / 2 ^ (8 * n - off - width) % 2 ^ width) := by
  refine Memory.fieldValue_of_bits _ off width _ fun j hj => ?_
  have hpos : 8 * n - off - width + (width - 1 - j) = 8 * n - 1 - (off + j) := by omega
  rw [presentInteger_bit v (by omega), ← Nat.shiftRight_eq_div_pow, Nat.testBit_shiftRight, hpos]

/-- The first `n` bytes of a source that has them re-assemble to the integer of their bits. -/
theorem Memory.integer_of_size (m : Memory) {n : Nat} (hn : n ≤ m.size) :
    ∃ v, m.integer n = some v ∧ v < 2 ^ (8 * n) ∧ ∀ k < 8 * n, m.bit k = some (v.testBit (8 * n - 1 - k)) := by
  obtain ⟨v, hv⟩ := m.fieldValue_of_size (abs := 0) (w := 8 * n) (by omega)
  have hlt := m.fieldValue_lt hv
  have hbit : ∀ k < 8 * n, m.bit k = some (v.testBit (8 * n - 1 - k)) := by simpa using m.bit_of_fieldValue hv
  exact ⟨v, by rw [m.integer_of_bits n v hbit, Nat.mod_eq_of_lt hlt], hlt, hbit⟩

/-! ## The integer a write operation returns (43_host_operations.md R189) -/

section
variable {op : HostOp} {size : IntSize} {off : Nat} (hsh : hostShape op = .single size off)
include hsh

/-- On a copy of an integer every command is granted. -/
theorem grants_single (v : Nat) (s : State) : (s.bound (hostShape op) v).grants (hostCommand op) = true :=
  State.grants_iff.mpr ⟨by simp [hostCommand_place, hsh], fun _ => by simp [hsh]⟩

/-- A write operation on a field inside a single integer returns the integer with the value's low bits in the field. -/
theorem runHostOp_write_single (hw : (hostCommand op).writes = true) (v : Nat) (s : State)
    (h1 : 1 ≤ (hostCommand op).width) (hcap : (hostCommand op).width ≤ (hostCommand op).capacity)
    (hend : off + (hostCommand op).width ≤ 8 * intBytes size) :
    ∃ v' t, runHostOp op v s = some (.integer v', t) ∧ Claims.KeepsHostSide s t ∧ v' < 2 ^ (8 * intBytes size) ∧
      ∀ k < 8 * intBytes size, v'.testBit (8 * intBytes size - 1 - k) =
        if off ≤ k ∧ k < off + (hostCommand op).width then
          (valueOf (hostCommand op)).getLsbD (off + (hostCommand op).width - 1 - k)
        else v.testBit (8 * intBytes size - 1 - k) := by
  have hplace : (hostCommand op).place = shapePlace (.single size off) := by rw [hostCommand_place, hsh]
  obtain ⟨m', hm', hrun⟩ := exec_write_valid (s := s.bound (hostShape op) v) hw
    (State.grants_iff.mp (grants_single hsh v s)).1 (by rw [hsh]; rfl) (fun _ => h1)
    (by simp only [hplace, shapePlace_single_abs, shapePlace_single_total]; omega) hcap
    (by simpa [hplace] using hend)
  rw [hplace, shapePlace_single_abs, hsh, State.bound_single_mem] at hm'
  obtain ⟨v', hv', hlt, hbit⟩ := m'.integer_of_size (n := intBytes size) (by rw [hm'.size, presentInteger_size])
  refine ⟨v', _, runHostOp_of_next hrun rfl ?_, by rw [hsh] at hrun ⊢; exact keepsHostSide_of_single hrun, hlt,
    fun k hk => ?_⟩
  · rw [hostResult_of_ok, hostOutput_of_writes hw, hsh, writtenStorage, hv', Option.map_some]
  · have hk' := (hbit k hk).symm.trans (hm'.bit h1 k)
    rw [presentInteger_bit v hk, Option.map_some, ← apply_ite some] at hk'
    rw [Option.some.inj hk']
    exact ite_congr rfl (fun hin => testBit_truncValue_of_lt _ (by omega)) fun _ => rfl

/-- A write operation of width 1 inside a single integer returns the integer with that bit forced to the value's low bit. -/
theorem runHostOp_writeBit_single (hw : (hostCommand op).writes = true) (v : Nat) (s : State) {b : Bool}
    (hwidth : (hostCommand op).width = 1) (hcap : (hostCommand op).capacity = 1)
    (hvalue : (valueOf (hostCommand op)).getLsbD 0 = b) (hoff : off < 8 * intBytes size) :
    ∃ v' t, runHostOp op v s = some (.integer v', t) ∧ Claims.KeepsHostSide s t ∧ v' < 2 ^ (8 * intBytes size) ∧
      ∀ k < 8 * intBytes size, v'.testBit (8 * intBytes size - 1 - k) =
        if k = off then b else v.testBit (8 * intBytes size - 1 - k) := by
  obtain ⟨v', t, hrun, hside, hlt, hbit⟩ := runHostOp_write_single hsh hw v s (by omega) (by omega) (by omega)
  refine ⟨v', t, hrun, hside, hlt, fun k hk => ?_⟩
  have hone : (off ≤ k ∧ k < off + 1) ↔ k = off := by omega
  rw [hbit k hk, hwidth]
  refine ite_congr (propext hone) (fun hin => ?_) fun _ => rfl
  rw [hin, Nat.add_sub_cancel, Nat.sub_self, hvalue]

end

/-! ## The statements -/

/-- Settles O48, by the bits of a presented integer. -/
theorem presentedIntegerReadsBack : Obligations.PresentedIntegerReadsBack := by
  unfold Obligations.PresentedIntegerReadsBack
  exact fun n v => Memory.integer_of_bits _ n v fun _ => presentInteger_bit v

/-- Settles O49: the width and the one issued for it are both beyond every capacity. -/
theorem overwideHostWidthFailsTheSameWay : Obligations.OverwideHostWidthFailsTheSameWay := by
  unfold Obligations.OverwideHostWidthFailsTheSameWay
  intro c p width v s h
  have hissued := capacityBits_lt_issuedWidth c h
  have hcap : capacityBits c < width := hissued.trans_le (Nat.min_le_left _ _)
  simp only [exec_extuOf, exec_extsOf, exec_insOf]
  exact ⟨runRead_overwide_congr p hissued hcap _ _ s, runRead_overwide_congr p hissued hcap _ _ s,
    runWrite_overwide_congr p hissued hcap v s⟩

/-- Settles O50: the position holds a bit, and TEST reads it. -/
theorem getBitReturnsTheBoolean : Obligations.GetBitReturnsTheBoolean := by
  unfold Obligations.GetBitReturnsTheBoolean
  intro sh v s hn hstart
  obtain ⟨b, hb⟩ := Memory.bit_of_lt_size _ (Nat.lt_of_lt_of_le hstart (Nat.mul_le_mul_left 8 hn))
  obtain ⟨t, hrun, hside⟩ := runHostOp_getBit hn hstart hb
  exact ⟨b, t, hb, hrun, hside⟩

/-- Settles O51: both operations read the field's value, and the low bits of its two forms are as said. -/
theorem getIntegersReturnTheField : Obligations.GetIntegersReturnTheField := by
  unfold Obligations.GetIntegersReturnTheField
  intro c sh width v s hn h0 hstart hcap hend
  obtain ⟨u, hu⟩ := Memory.fieldValue_of_size _ (hend.trans (Nat.mul_le_mul_left 8 hn))
  have hv := validate_ok_of_inside (policy := (s.bound sh v).config.zeroWidthPolicy) (by simpa using h0) hstart hcap hend
  obtain ⟨t, hrun, hside⟩ := runHostOp_getU hn hcap hv hu
  obtain ⟨t', hrun', hside'⟩ := runHostOp_getI hn hcap hv hu
  exact ⟨u, _, t, t', hu, hrun, hside, hrun', hside', lowBits_lt c _,
    fun k => testBit_lowBits_sextResult (Memory.fieldValue_lt _ hu) hcap⟩

/-- Settles O52, by the bits and the fields of a presented integer. -/
theorem getOnSingleIntegerReadsItsBits : Obligations.GetOnSingleIntegerReadsItsBits := by
  unfold Obligations.GetOnSingleIntegerReadsItsBits
  refine ⟨fun size off v s hoff => ?_, fun c size off width v s hw hcap hend => ?_⟩
  · obtain ⟨t, hrun, -⟩ := runHostOp_getBit (sh := .single size off) (v := v) (s := s) (by simp) (by simpa using hoff)
      (by simpa using presentInteger_bit v hoff)
    exact ⟨t, hrun⟩
  · obtain ⟨t, hrun, -⟩ := runHostOp_getU (sh := .single size off) (v := v) (s := s) (by simp) hcap
      (validate_ok_of_pos hw hcap (by simpa using hend)) (by simpa using presentInteger_fieldValue v hend)
    exact ⟨t, hrun⟩

/-- Settles O53: a valid field of the copy is patched and the copy re-assembled; an offset past the end is outside the source. -/
theorem setOnSingleIntegerReturnsTheNewInteger : Obligations.SetOnSingleIntegerReturnsTheNewInteger := by
  unfold Obligations.SetOnSingleIntegerReturnsTheNewInteger
  intro c size off width value v s h1
  have hsh : hostShape (.setU c size off width value) = .single size off := rfl
  obtain ⟨hwrites, hplace, hwidth, hcapacity, hvalue⟩ :=
    insOf_eq c (shapePlace (.single size off)) (issuedWidth width) value
  refine ⟨fun hcap hend => ?_, fun hoff => ?_⟩
  · have hrun := runHostOp_write_single hsh hwrites v s
    rw [hostCommand, hwidth, hcapacity, hvalue, issuedWidth_of_le hcap] at hrun
    exact hrun h1 hcap hend
  · have hpos : issuedWidth width ≠ 0 := by rw [issuedWidth]; omega
    have hrun := exec_of_start_outside (grants_single hsh v s) (by simpa [hostCommand_place, hsh] using hoff)
    refine runHostOp_of_failure hrun ?_ (by decide)
    simp [State.status, hostCommand, hwidth, hpos]

/-- Settles O54: SETB and CLRB patch a one-bit field of the copy, with 1 and with 0. -/
theorem bitOperationsReturnTheNewInteger : Obligations.BitOperationsReturnTheNewInteger := by
  unfold Obligations.BitOperationsReturnTheNewInteger
  intro size off v s hoff
  have hone : (1 : Bus).getLsbD 0 = true := by decide
  have hzero : (0 : Bus).getLsbD 0 = false := by decide
  exact ⟨runHostOp_writeBit_single (op := .setBit (.single size off)) rfl rfl v s rfl rfl hone hoff,
    runHostOp_writeBit_single (op := .clearBit (.single size off)) rfl rfl v s rfl rfl hzero hoff⟩

/-- Settles O55: a sequence is bound and unbound as itself, and a write operation on it has one output. -/
theorem sequenceWritesChangeTheStorageInPlace : Obligations.SequenceWritesChangeTheStorageInPlace := by
  unfold Obligations.SequenceWritesChangeTheStorageInPlace
  intro op len byte bit v s t hsh hw h hok
  obtain ⟨⟨status, value⟩, hr, rfl⟩ := Option.map_eq_some_iff.mp hok
  have hresult : hostResult op ⟨.ok, value⟩ t.mem = some .changedInPlace := by
    rw [hostResult_of_ok, hostOutput_of_writes hw, hsh, writtenStorage]
  have hrun := runHostOp_of_next (v := v) (by rw [hsh]; exact h) hr hresult
  rwa [hsh] at hrun

/-- Settles O56, by what an operation whose command failed returns. -/
theorem failedOperationReturnsTheFailureAlone : Obligations.FailedOperationReturnsTheFailureAlone := by
  unfold Obligations.FailedOperationReturnsTheFailureAlone
  exact fun op v status s t h hs hne => runHostOp_of_failure h hs hne

end Sys2Proof.Machine
end

section
/-! SUPPORT. What the Addressor's failure says of the request, the one state a failed command leaves, and that neither a command
nor a step answers a fault; with them the statements of 60_exceptions.md are settled. -/

namespace Sys2Proof.Machine

/-! ## The status codes (60_exceptions.md R200) -/

/-- Settles O7, by the six statuses. -/
theorem statusCodesAreTheTable : Obligations.StatusCodesAreTheTable := by
  unfold Obligations.StatusCodesAreTheTable
  refine ⟨⟨rfl, rfl, rfl, rfl, rfl, rfl⟩, fun a => ?_, fun a b => ?_⟩
  · cases a <;> decide
  · cases a <;> cases b <;> decide

/-! ## What a failure leaves (60_exceptions.md R203) -/

/-- A command that fails raises the status its request was rejected with. -/
theorem exec_failure_eq_raise {i : Instr} {s t : State} (h : exec i s = .next t) (hf : t.status ≠ some .ok) :
    ∃ status, s.grants i = true ∧
      validate s.config.zeroWidthPolicy i.place i.width i.capacity = .error status ∧ t = s.raise status := by
  obtain ⟨hg, ⟨status, -, hv, ht⟩ | ⟨-, -, u, -, rfl⟩ | ⟨-, -, m', -, rfl⟩⟩ := exec_next_cases h
  · exact ⟨status, hg, hv, ht⟩
  · exact absurd rfl hf
  · exact absurd rfl hf

/-- Settles O16: a failed command ends in a raise, and so does a step on an unassigned control word or on a command that fails. -/
theorem failureChangesOnlyTheResponse : Obligations.FailureChangesOnlyTheResponse := by
  unfold Obligations.FailureChangesOnlyTheResponse
  refine ⟨fun i s t h hf => ?_, fun s t h hf => ?_⟩
  · obtain ⟨status, -, -, rfl⟩ := exec_failure_eq_raise h hf
    exact ⟨status, rfl⟩
  · obtain ⟨c, rest, hc, -, ⟨why, -, rfl⟩ | ⟨i, -, hi⟩⟩ := step_next_cases h
    · exact ⟨.illegalCommand, by rw [hc]; rfl⟩
    · obtain ⟨status, -, -, rfl⟩ := exec_failure_eq_raise hi hf
      exact ⟨status, by rw [hc]; rfl⟩

/-- Settles O46: the raise changes nothing the grant or the request depends on, and a second raise of the status nothing at all. -/
theorem failingCommandFailsTheSameWayAgain : Obligations.FailingCommandFailsTheSameWayAgain := by
  unfold Obligations.FailingCommandFailsTheSameWayAgain
  intro i s t h hf
  obtain ⟨status, hg, hv, rfl⟩ := exec_failure_eq_raise h hf
  exact exec_of_error (s := s.raise status) hg hv

/-! ## Unassigned control words (60_exceptions.md R208) -/

/-- Settles O9: a control word that no row selects decodes to no command, and the step then raises IllegalCommand. -/
theorem unassignedControlWordAnswersIllegalCommand : Obligations.UnassignedControlWordAnswersIllegalCommand := by
  unfold Obligations.UnassignedControlWordAnswersIllegalCommand
  intro s c rest hc hf hrows
  obtain ⟨why, hd⟩ := decode_error_of_no_row hrows
  exact step_of_decode_error hc hf hd

/-! ## No fault (60_exceptions.md R202) -/

/-- A command the host has not granted is refused. -/
theorem exec_refused_of_not_grants {i : Instr} {s : State} (hg : ¬s.grants i = true) : ∃ why, exec i s = .refused why := by
  rcases Nat.lt_or_ge s.mem.size i.place.srcLen with hn | hn
  · exact ⟨_, exec_of_srcLen_beyond hn⟩
  · obtain ⟨hw, hb⟩ : i.writes = true ∧ s.borrow ≠ .mutably := by simpa [State.grants_iff, hn] using hg
    refine ⟨_, exec_of_lent_immutably hn hw ?_⟩
    cases hs : s.borrow with
    | immutably => rfl
    | mutably => exact absurd hs hb

/-- A granted command answers a next state, any other is refused. -/
theorem exec_ne_fault (i : Instr) (s : State) (f : Fault) : exec i s ≠ .fault f := by
  by_cases hg : s.grants i = true
  · obtain ⟨t, h, -⟩ := exec_status hg
    simp [h]
  · obtain ⟨why, h⟩ := exec_refused_of_not_grants hg
    simp [h]

/-- A step is refused, raises IllegalCommand or runs a command. -/
theorem step_ne_fault (s : State) (f : Fault) : step s ≠ .fault f := by
  cases hc : s.hostCommands with
  | nil => simp [step_of_no_command hc]
  | cons c rest =>
    cases hf : c.fits s.config.aw with
    | false => simp [step_of_not_fits hc hf]
    | true =>
      cases hd : decode c with
      | error why => simp [step_of_decode_error hc hf hd]
      | ok i =>
        rw [step_of_decode_ok hc hf hd]
        exact exec_ne_fault i _ f

/-- Settles O22, by the answers of a command and of a step. -/
theorem noCommandFaults : Obligations.NoCommandFaults := by
  unfold Obligations.NoCommandFaults
  exact ⟨exec_ne_fault, step_ne_fault⟩

/-! ## The statuses of each command (60_exceptions.md R209) -/

/-- What each failure of the Addressor says of the request. -/
theorem validate_error_cases {policy : ZeroWidthPolicy} {p : Place} {width cap : Nat} {status : Status}
    (h : validate policy p width cap = .error status) :
    (status = .zeroWidth ∧ width = 0 ∧ policy = .reject) ∨ (status = .startOffsetTooBig ∧ p.total ≤ p.abs) ∨
      (status = .numberOfBitsTooBigForOutputType ∧ cap < width) ∨
      (status = .outOfRange ∧ p.abs < p.total ∧ p.total < p.abs + width) := by
  rw [validate] at h
  split at h
  · next hz => cases h; exact .inl ⟨rfl, hz.2, hz.1⟩
  split at h
  · next hstart => cases h; exact .inr (.inl ⟨rfl, hstart⟩)
  split at h
  · next hcap => cases h; exact .inr (.inr (.inl ⟨rfl, hcap⟩))
  split at h
  · next hstart _ hend => cases h; exact .inr (.inr (.inr ⟨rfl, Nat.lt_of_not_le hstart, hend⟩))
  · cases h

/-- A request of width 1 can fail only by its start. -/
theorem validate_error_of_width_one {policy : ZeroWidthPolicy} {p : Place} {cap : Nat} {status : Status} (hcap : 1 ≤ cap)
    (h : validate policy p 1 cap = .error status) : status = .startOffsetTooBig := by
  obtain ⟨-, h0, -⟩ | ⟨rfl, -⟩ | ⟨-, hwide⟩ | ⟨-, hstart, hend⟩ := validate_error_cases h
  · omega
  · rfl
  · omega
  · omega

/-- Settles O17: a command that fails ends with the Addressor's status, which says what is wrong with the request. -/
theorem eachCommandHasItsStatuses : Obligations.EachCommandHasItsStatuses := by
  unfold Obligations.EachCommandHasItsStatuses
  intro i s t h
  by_cases hok : t.status = some .ok
  · simp [hok]
  obtain ⟨status, -, hv, rfl⟩ := exec_failure_eq_raise h hok
  have hstatus : (s.raise status).status = some status := rfl
  have hsingle : (∃ p, i = .test p ∨ i = .setb p ∨ i = .clrb p) → status = .startOffsetTooBig := by
    rintro ⟨p, rfl | rfl | rfl⟩ <;> exact validate_error_of_width_one (Nat.le_refl 1) hv
  simp only [hstatus, Option.some.injEq]
  refine ⟨?_, fun hi => .inr (hsingle hi), ?_⟩
  · obtain ⟨rfl, -⟩ | ⟨rfl, -⟩ | ⟨rfl, -⟩ | ⟨rfl, -⟩ := validate_error_cases hv <;> decide
  · obtain ⟨rfl, hz⟩ | ⟨rfl, hstart⟩ | ⟨rfl, hcap⟩ | ⟨rfl, hrange⟩ := validate_error_cases hv
    · simp [hz]
    · simp [hstart]
    · simp [hcap]
    · simp [hrange]

end Sys2Proof.Machine
end
